-- ==== Sys2Proof/Word.lean ====
section
/-! DEFINITION. The word types of the CORE (spec/00_scope.md R2 and section 6): everything is unsigned and bit 0 is
the least significant bit. -/

namespace Sys2Proof

/-- A register value, a data word, an instruction word or a program-counter value: 16 bits (R2, `WORD`, `PCW`). -/
abbrev Word := BitVec 16

/-- The 8-bit immediate field of an instruction word (R2, `IMMW`). -/
abbrev Byte := BitVec 8

/-- The 8-bit word address of a store, 0 to 255, as an instruction holds it (10_state.md R19). -/
abbrev Addr := BitVec 8

/-- A 3-bit register index, 0 to 7 (10_state.md R10). -/
abbrev RegIdx := BitVec 3

end Sys2Proof
end

