-- ==== Sys2Proof/Syntax.lean ====
section
/-! DEFINITION. The instructions as data (spec/40_codec.md R95), one constructor per row of opcode_table.json, and
their six operand formats (spec/30_encoding.md R52). -/

namespace Sys2Proof

/-- An instruction with its operands (R95). `a` is the register-A field, `b` the register-B field. -/
inductive Instr where
  /-- MOV, 42_alu_register_pair.md R120. -/
  | mov (a b : RegIdx)
  /-- ADD, R121. -/
  | add (a b : RegIdx)
  /-- SUB, R122. -/
  | sub (a b : RegIdx)
  /-- AND, R123. -/
  | and (a b : RegIdx)
  /-- OR, R124. -/
  | or (a b : RegIdx)
  /-- SL, 43_shift.md R130. -/
  | sl (a : RegIdx)
  /-- SR, R131. -/
  | sr (a : RegIdx)
  /-- SRA, R132. -/
  | sra (a : RegIdx)
  /-- LDL, 44_byte_load.md R140. -/
  | ldl (a : RegIdx) (imm : Byte)
  /-- LDH, R141. -/
  | ldh (a : RegIdx) (imm : Byte)
  /-- CMP, 45_compare_branch.md R150. -/
  | cmp (a b : RegIdx)
  /-- JE, R151. -/
  | je (addr : Addr)
  /-- JMP, R152. -/
  | jmp (addr : Addr)
  /-- LD, 46_load_store.md R160. -/
  | ld (a : RegIdx) (addr : Addr)
  /-- ST, R161. -/
  | st (a : RegIdx) (addr : Addr)
  /-- HLT, 47_halt_unknown.md R170. -/
  | hlt
  /-- UNK, a word whose opcode is 16 to 31, R171; `low` is its bits 10..0. -/
  | unk (op : BitVec 5) (low : BitVec 11)
deriving DecidableEq, Repr

/-- The operand formats of R52. `none` is the format column of the UNK row: no encoder makes such a word. -/
inductive Format where
  | RR
  | RI
  | RM
  | R
  | J
  | N
  | none
deriving DecidableEq, Repr

/-- The format of an instruction (R55, R56). -/
def Instr.format : Instr → Format
  | .mov _ _ => .RR
  | .add _ _ => .RR
  | .sub _ _ => .RR
  | .and _ _ => .RR
  | .or _ _ => .RR
  | .sl _ => .R
  | .sr _ => .R
  | .sra _ => .R
  | .ldl _ _ => .RI
  | .ldh _ _ => .RI
  | .cmp _ _ => .RR
  | .je _ => .J
  | .jmp _ => .J
  | .ld _ _ => .RM
  | .st _ _ => .RM
  | .hlt => .N
  | .unk _ _ => .none

/-- The mnemonic of an instruction, as opcode_table.json spells it. -/
def Instr.mnemonic : Instr → String
  | .mov _ _ => "MOV"
  | .add _ _ => "ADD"
  | .sub _ _ => "SUB"
  | .and _ _ => "AND"
  | .or _ _ => "OR"
  | .sl _ => "SL"
  | .sr _ => "SR"
  | .sra _ => "SRA"
  | .ldl _ _ => "LDL"
  | .ldh _ _ => "LDH"
  | .cmp _ _ => "CMP"
  | .je _ => "JE"
  | .jmp _ => "JMP"
  | .ld _ _ => "LD"
  | .st _ _ => "ST"
  | .hlt => "HLT"
  | .unk _ _ => "UNK"

end Sys2Proof
end

