-- ==== Sys2Proof/WellFormed.lean ====
section
/-! DEFINITION. Which instruction terms are instructions (spec/40_codec.md R95). The operand types already bound every
register index, immediate and address, so one check is left: the opcode of an UNK is one of 16 to 31. -/

namespace Sys2Proof

/-- An UNK carries an opcode value in 16..31 (R95); every other term is an instruction whatever its operands. -/
def Instr.wf : Instr → Bool
  | .unk op _ => decide (16 ≤ op.toNat)
  | .mov _ _ | .add _ _ | .sub _ _ | .and _ _ | .or _ _ | .cmp _ _ => true
  | .sl _ | .sr _ | .sra _ => true
  | .ldl _ _ | .ldh _ _ | .ld _ _ | .st _ _ => true
  | .je _ | .jmp _ | .hlt => true

end Sys2Proof
end

