-- ==== Sys2Proof/Decode.lean ====
section
/-! DEFINITION. The instruction codec (spec/30_encoding.md, spec/40_codec.md): the five decode projections, the
structured decoder (total: no word is rejected, R60), the opcode table, and the sixteen encoders.
Opcode numbers are the spec's decision D1 (UNVERIFIED, log 6). -/

namespace Sys2Proof

/-! ## The decoder -/

/-- Bits 15..11 (R90). -/
def opcode (w : Word) : BitVec 5 := w.extractLsb' 11 5

/-- Bits 10..8 (R91). -/
def registerA (w : Word) : RegIdx := w.extractLsb' 8 3

/-- Bits 7..5 (R92). -/
def registerB (w : Word) : RegIdx := w.extractLsb' 5 3

/-- Bits 7..0 (R93). -/
def immediate (w : Word) : Byte := w.extractLsb' 0 8

/-- Bits 7..0 again: the same function as `immediate` (R94). -/
def address (w : Word) : Addr := immediate w

/-- Bits 10..0, which UNK carries along (R95). -/
def lowBits (w : Word) : BitVec 11 := w.extractLsb' 0 11

/-- The structured decode of R95: a case on the opcode field alone (R57). Unused bits are dropped (R58), and every
opcode value from 16 to 31 is UNK (R59). -/
def decode (w : Word) : Instr :=
  match (opcode w).toNat with
  | 0 => .mov (registerA w) (registerB w)
  | 1 => .add (registerA w) (registerB w)
  | 2 => .sub (registerA w) (registerB w)
  | 3 => .and (registerA w) (registerB w)
  | 4 => .or (registerA w) (registerB w)
  | 5 => .sl (registerA w)
  | 6 => .sr (registerA w)
  | 7 => .sra (registerA w)
  | 8 => .ldl (registerA w) (immediate w)
  | 9 => .ldh (registerA w) (immediate w)
  | 10 => .cmp (registerA w) (registerB w)
  | 11 => .je (address w)
  | 12 => .jmp (address w)
  | 13 => .ld (registerA w) (address w)
  | 14 => .st (registerA w) (address w)
  | 15 => .hlt
  | _ => .unk (opcode w) (lowBits w)

/-- The instruction the decoder reads from a word of `nbits` bits numbered as opcode_table.json numbers them, the bits
above `nbits` being 0. An instruction is one 16-bit word (R50), so bits above 15 belong to no instruction (log 17). -/
def decodeTableWord (nbits w : Nat) : Option Instr :=
  some (decode (BitVec.ofNat 16 (w % 2 ^ nbits)))

/-! ## The opcode table -/

/-- A row of opcode_table.json: a word `w` is this instruction exactly when `w &&& mask = pattern` (R55). -/
structure OpcodeRow where
  mnemonic : String
  format : Format
  pattern : Word
  mask : Word
deriving DecidableEq, Repr

/-- The opcode map of R55. -/
def opcodeTable : List OpcodeRow :=
  [ ⟨"MOV", .RR, 0x0000#16, 0xF800#16⟩, ⟨"ADD", .RR, 0x0800#16, 0xF800#16⟩,
    ⟨"SUB", .RR, 0x1000#16, 0xF800#16⟩, ⟨"AND", .RR, 0x1800#16, 0xF800#16⟩,
    ⟨"OR", .RR, 0x2000#16, 0xF800#16⟩, ⟨"SL", .R, 0x2800#16, 0xF800#16⟩,
    ⟨"SR", .R, 0x3000#16, 0xF800#16⟩, ⟨"SRA", .R, 0x3800#16, 0xF800#16⟩,
    ⟨"LDL", .RI, 0x4000#16, 0xF800#16⟩, ⟨"LDH", .RI, 0x4800#16, 0xF800#16⟩,
    ⟨"CMP", .RR, 0x5000#16, 0xF800#16⟩, ⟨"JE", .J, 0x5800#16, 0xF800#16⟩,
    ⟨"JMP", .J, 0x6000#16, 0xF800#16⟩, ⟨"LD", .RM, 0x6800#16, 0xF800#16⟩,
    ⟨"ST", .RM, 0x7000#16, 0xF800#16⟩, ⟨"HLT", .N, 0x7800#16, 0xF800#16⟩,
    ⟨"UNK", .none, 0x8000#16, 0x8000#16⟩ ]

/-- The bits of a word its format uses (R98, the table's canonical_mask). -/
def usedMask : Format → Word
  | .RR => 0xFFE0#16
  | .RI => 0xFFFF#16
  | .RM => 0xFFFF#16
  | .R => 0xFF00#16
  | .J => 0xF8FF#16
  | .N => 0xF800#16
  | .none => 0xFFFF#16

/-- A word whose unused bits are all 0 (R58). -/
abbrev Canonical (w : Word) : Prop := w &&& usedMask (decode w).format = w

/-! ## The encoders -/

/-- A register operand, masked to 3 bits (R70), at bits 10..8. -/
def placeA (ra : Word) : Word := (ra &&& 0x7#16) <<< 8

/-- A register operand, masked to 3 bits (R70), at bits 7..5. -/
def placeB (rb : Word) : Word := (rb &&& 0x7#16) <<< 5

/-- An immediate or address operand, masked to 8 bits (R70), at bits 7..0. -/
def place8 (v : Word) : Word := v &&& 0xFF#16

/-- R73. The operands of all sixteen encoders are 16 bits wide (R71, the spec's decision D3, log 12). -/
def encMOV (ra rb : Word) : Word := 0x0000#16 ||| placeA ra ||| placeB rb

/-- R74. -/
def encADD (ra rb : Word) : Word := 0x0800#16 ||| placeA ra ||| placeB rb

/-- R75. -/
def encSUB (ra rb : Word) : Word := 0x1000#16 ||| placeA ra ||| placeB rb

/-- R76. -/
def encAND (ra rb : Word) : Word := 0x1800#16 ||| placeA ra ||| placeB rb

/-- R77. -/
def encOR (ra rb : Word) : Word := 0x2000#16 ||| placeA ra ||| placeB rb

/-- R78. -/
def encSL (ra : Word) : Word := 0x2800#16 ||| placeA ra

/-- R79. -/
def encSR (ra : Word) : Word := 0x3000#16 ||| placeA ra

/-- R80. -/
def encSRA (ra : Word) : Word := 0x3800#16 ||| placeA ra

/-- R81. -/
def encLDL (ra imm : Word) : Word := 0x4000#16 ||| placeA ra ||| place8 imm

/-- R82. -/
def encLDH (ra imm : Word) : Word := 0x4800#16 ||| placeA ra ||| place8 imm

/-- R83. -/
def encCMP (ra rb : Word) : Word := 0x5000#16 ||| placeA ra ||| placeB rb

/-- R84. -/
def encJE (addr : Word) : Word := 0x5800#16 ||| place8 addr

/-- R85. -/
def encJMP (addr : Word) : Word := 0x6000#16 ||| place8 addr

/-- R86. -/
def encLD (ra addr : Word) : Word := 0x6800#16 ||| placeA ra ||| place8 addr

/-- R87. -/
def encST (ra addr : Word) : Word := 0x7000#16 ||| placeA ra ||| place8 addr

/-- R88. -/
def encHLT : Word := 0x7800#16

/-- Whether a format holds a register-A field (R89). -/
def usesRa : Format → Bool
  | .RR | .RI | .RM | .R => true
  | .J | .N | .none => false

/-- Whether a format holds a register-B field (R89). -/
def usesRb : Format → Bool
  | .RR => true
  | .RI | .RM | .R | .J | .N | .none => false

/-- Whether a format holds the 8-bit field (R89). -/
def usesF8 : Format → Bool
  | .RI | .RM | .J => true
  | .RR | .R | .N | .none => false

/-- The one formula of R89, of which the sixteen encoders are instances. -/
def encodeFields (n : BitVec 5) (f : Format) (ra rb f8 : Word) : Word :=
  (n.setWidth 16 <<< 11)
    ||| (if usesRa f then placeA ra else 0)
    ||| (if usesRb f then placeB rb else 0)
    ||| (if usesF8 f then place8 f8 else 0)

/-- The word of an instruction: for a named instruction its encoder's word; for UNK, which has no encoder (R72,
D4), the raw constant that holds its opcode and low bits (R63; DESIGN CHOICE, log 11). -/
def encode : Instr → Word
  | .mov a b => encMOV (a.setWidth 16) (b.setWidth 16)
  | .add a b => encADD (a.setWidth 16) (b.setWidth 16)
  | .sub a b => encSUB (a.setWidth 16) (b.setWidth 16)
  | .and a b => encAND (a.setWidth 16) (b.setWidth 16)
  | .or a b => encOR (a.setWidth 16) (b.setWidth 16)
  | .sl a => encSL (a.setWidth 16)
  | .sr a => encSR (a.setWidth 16)
  | .sra a => encSRA (a.setWidth 16)
  | .ldl a imm => encLDL (a.setWidth 16) (imm.setWidth 16)
  | .ldh a imm => encLDH (a.setWidth 16) (imm.setWidth 16)
  | .cmp a b => encCMP (a.setWidth 16) (b.setWidth 16)
  | .je addr => encJE (addr.setWidth 16)
  | .jmp addr => encJMP (addr.setWidth 16)
  | .ld a addr => encLD (a.setWidth 16) (addr.setWidth 16)
  | .st a addr => encST (a.setWidth 16) (addr.setWidth 16)
  | .hlt => encHLT
  | .unk op low => (op.setWidth 16 <<< 11) ||| low.setWidth 16

end Sys2Proof
end

