-- ==== Sys2Proof/Config.lean ====
section
/-! DEFINITION. The fixed sizes of the CORE (spec/00_scope.md R2). Every size is fixed; the CORE leaves nothing to an
implementation, so there is no free value here. -/

namespace Sys2Proof.Config

/-- `NREG`, the number of general registers (R2). -/
abbrev numRegs : Nat := 8

/-- `IMEM_WORDS`, the number of words of the instruction store (R2, 10_state.md R18). -/
abbrev imemWords : Nat := 256

/-- `DMEM_WORDS`, the number of words of the data store (R2, 10_state.md R19). -/
abbrev dmemWords : Nat := 256

/-- The data-store word the reference host reads after the halt: a convention of that host, not of the machine
(10_state.md R24). -/
abbrev resultAddr : Addr := 64#8

end Sys2Proof.Config
end

