-- ==== Sys2Proof/Machine/State.lean ====
section
/-! DEFINITION. The state of the machine (spec/10_state.md R20: exactly this tuple), the reasons a step can stop, the
observer record a step emits, and the state after reset (R26). -/

namespace Sys2Proof.Machine

/-- The faults of the machine (60_exceptions.md R180, R181: there is exactly one). -/
inductive Fault where
  /-- Raised by the fetch of a step that begins with `pc` at 256 or more, holding that `pc` (R181). It changes no
  state and emits no record (R182). Safe: it is the spec's decision D5, which errs toward unprovable (log 7). -/
  | fetchOutOfRange (pc : Word)
deriving DecidableEq, Repr

/-- Why no step is taken. -/
inductive Refusal where
  /-- Answered by a step of a halted machine: a halted machine has no step (41_instruction_cycle.md R105, R106). It
  is the outcome "halted: no step" of 60_exceptions.md R182 and no fault. Safe: no run goes on from it (log 3). -/
  | halted
  /-- Answered by an arm of `exec` whose instruction has no meaning yet. Safe. No arm of this model answers it. -/
  | notModelled (mnemonic : String)
deriving DecidableEq, Repr

/-- A store of 256 words, held as the list of its (address, word) pairs that differ from what an unlisted address
reads as. The unit is the 16-bit word, because neither store is byte addressed (20_memory.md R30, R31; DESIGN CHOICE,
log 1). -/
abbrev Memory := List (Nat × Word)

/-- The state tuple of R20. -/
structure State where
  /-- The general registers `x[0]` to `x[7]` (R10). -/
  x : Vector Word 8
  /-- The program counter, a word address of the instruction store (R12). -/
  pc : Word
  /-- The equality flag, one bit (R14). -/
  flag : Bool
  /-- The instruction register `IR`: the word read by the latest fetch (R15). -/
  ir : Word
  /-- The instruction store (R18). -/
  imem : Memory
  /-- The data store (R19). -/
  dmem : Memory
deriving DecidableEq, Repr

/-- The observer record a step emits (41_instruction_cycle.md R108): an output, not state (R23; log 5). -/
structure ObserverRecord where
  /-- The address the word was fetched from. -/
  programCounter : Word
  /-- The fetched word with all its bits. -/
  instructionWord : Word
  /-- The registers after the execute phase. -/
  registers : Vector Word 8
deriving DecidableEq, Repr

/-- The state after a reset whose load image is `image` (R26, 70_reset_and_hazards.md R200). `IR`, `flag` and the data
store are zero by the spec's decisions D6, D7, D8 (logs 8, 9, 2). -/
def State.resetWith (image : Memory) : State where
  x := Vector.replicate 8 0
  pc := 0
  flag := false
  ir := 0
  imem := image
  dmem := []

/-- The state after reset with an instruction store in which no loader has written anything (R26; the load image is a
parameter of a run, R203; log 4). -/
def State.reset : State := State.resetWith []

end Sys2Proof.Machine
end

