-- ==== Sys2Proof/Machine/Flags.lean ====
section
/-! DEFINITION. The one flag computation of the machine (spec/45_compare_branch.md R150). No other instruction writes
the flag (spec/10_state.md R14). -/

namespace Sys2Proof.Machine

/-- The value CMP gives the flag: 1 when all 16 bits agree, else 0 (R150). -/
def equalFlag (a b : Word) : Bool := a == b

end Sys2Proof.Machine
end

