-- ==== Sys2Proof/Machine/Operands.lean ====
section
/-! DEFINITION. The operand forms (spec/30_encoding.md R53): register operands are direct (`State.readReg` and
`State.writeReg` of Machine/Ops.lean), data addresses and jump targets absolute, immediates replace one byte. -/

namespace Sys2Proof.Machine

/-- The data-store address of an LD or ST: the 8-bit field itself (46_load_store.md, common part; R53). -/
def dataAddress (addr : Addr) : Addr := addr

/-- The target of a JE or JMP: the 8-bit field zero extended to the width of `pc` (R53, 45_compare_branch.md R153). -/
def jumpTarget (addr : Addr) : Word := addr.setWidth 16

/-- Replace the low byte, keep the high byte (44_byte_load.md R140). -/
def withLowByte (w : Word) (imm : Byte) : Word := (w &&& 0xFF00#16) ||| imm.setWidth 16

/-- Replace the high byte, keep the low byte (R141). -/
def withHighByte (w : Word) (imm : Byte) : Word := (imm.setWidth 16 <<< 8) ||| (w &&& 0x00FF#16)

end Sys2Proof.Machine
end

