-- ==== Sys2Proof/Machine/Ops.lean ====
section
/-! DEFINITION. The named operations over stores and registers, the fetch, and the one fault.
The machine has no trap mechanism (spec/60_exceptions.md R185, R186): nothing is saved, no handler is entered and
nothing returns, so raising the fault is all there is of taking an exception. -/

namespace Sys2Proof.Machine

/-! ## Stores -/

/-- What an unlisted address of either store reads as (10_state.md R26; the spec's decisions D8, D9, log 2). -/
def Memory.unlisted : Word := 0x0000#16

/-- The canonical form: addresses strictly rising and below 256, no entry equal to what an unlisted address reads as.
Both stores have 256 words (R18, R19). -/
abbrev Memory.wf (m : Memory) : Prop :=
  m.Pairwise (fun c d => c.1 < d.1) ∧ ∀ c ∈ m, c.1 < Config.dmemWords ∧ c.2 ≠ Memory.unlisted

/-- The word of the first cell with a given address. -/
def Memory.wordAt (k : Nat) : Memory → Word
  | [] => Memory.unlisted
  | c :: rest => if c.1 = k then c.2 else Memory.wordAt k rest

/-- The word at an address: `IFetch(a)` and `MemRead(a, 1)` (20_memory.md R30). -/
def Memory.read (m : Memory) (a : Addr) : Word := Memory.wordAt a.toNat m

/-- Put a cell in front of the first cell of a higher address. -/
def Memory.insertCell (a : Nat) (v : Word) : Memory → Memory
  | [] => [(a, v)]
  | c :: rest => if a < c.1 then (a, v) :: c :: rest else c :: Memory.insertCell a v rest

/-- `MemWrite(a, 1, v)` (R30): the word at `a` becomes `v`, every other word is unchanged. Writing what an unlisted
address reads as leaves the address unlisted. -/
def Memory.write (m : Memory) (a : Addr) (v : Word) : Memory :=
  let others := m.filter (fun c => c.1 != a.toNat)
  if v = Memory.unlisted then others else Memory.insertCell a.toNat v others

/-! ## Registers, flag, program counter -/

/-- `x[r]` (00_scope.md section 6). -/
def State.readReg (s : State) (r : RegIdx) : Word := s.x[r.toNat]'r.isLt

/-- `x[r] <- v`. No register is hard-wired (10_state.md R10). -/
def State.writeReg (s : State) (r : RegIdx) (v : Word) : State :=
  { s with x := s.x.set r.toNat v r.isLt }

/-- `flag <- b`. -/
def State.setFlag (s : State) (b : Bool) : State := { s with flag := b }

/-- `pc <- t`. -/
def State.setPc (s : State) (t : Word) : State := { s with pc := t }

/-- `MemWrite` on the data store; ST is its only user (R161). -/
def State.storeData (s : State) (a : Addr) (v : Word) : State := { s with dmem := s.dmem.write a v }

/-! ## Halt, fault, fetch -/

/-- The predicate `halted`: the opcode of `IR` is HLT's (10_state.md R16). -/
def State.halted (s : State) : Bool := opcode s.ir == 15#5

/-- `raise FetchOutOfRange(pc)` (R181): the machine stops, no state is changed (R182). -/
def raiseFetchOutOfRange {σ : Type} (s : State) : Host.Outcome σ Fault Refusal :=
  .fault (.fetchOutOfRange s.pc)

/-- The word at `pc`, for a `pc` inside the instruction store (R101). -/
def State.wordAtPc (s : State) : Word := s.imem.read (s.pc.setWidth 8)

/-- The state in which EXECUTE happens: `IR` holds the fetched word and `pc` has been incremented (R100, R102). The
increment wraps at 16 bits (D13, log 10). -/
def State.fetched (s : State) : State := { s with ir := s.wordAtPc, pc := s.pc + 1 }

/-- FETCH (R101): a `pc` of 256 or more has no word to read and raises the fault. -/
def fetch (s : State) : Host.Outcome State Fault Refusal :=
  if s.pc.toNat < Config.imemWords then .next s.fetched else raiseFetchOutOfRange s

/-- Go on from a next state; a fault or a refusal stays as it is. -/
def andThen {σ τ : Type} (o : Host.Outcome σ Fault Refusal) (k : σ → Host.Outcome τ Fault Refusal) :
    Host.Outcome τ Fault Refusal :=
  match o with
  | .next s => k s
  | .fault f => .fault f
  | .refused r => .refused r

end Sys2Proof.Machine
end

