-- ==== Sys2Proof/Machine/Alu.lean ====
section
/-! DEFINITION. The register-pair ALU instructions MOV, ADD, SUB, AND, OR (spec/42_alu_register_pair.md). Both reads
happen before the one write; none writes the flag, `pc` or a store, and none can fault. -/

namespace Sys2Proof.Machine

/-- `x[A] <- op(x[A], x[B])`, both read before the write (10_state.md R11). -/
def regPairOp (op : Word → Word → Word) (a b : RegIdx) (s : State) : State :=
  s.writeReg a (op (s.readReg a) (s.readReg b))

/-- R120. -/
def execMov (a b : RegIdx) (s : State) : Host.Outcome State Fault Refusal :=
  .next (regPairOp (fun _ vb => vb) a b s)

/-- R121: the sum modulo 2^16; the carry is lost. -/
def execAdd (a b : RegIdx) (s : State) : Host.Outcome State Fault Refusal :=
  .next (regPairOp (fun va vb => va + vb) a b s)

/-- R122: the difference modulo 2^16. -/
def execSub (a b : RegIdx) (s : State) : Host.Outcome State Fault Refusal :=
  .next (regPairOp (fun va vb => va - vb) a b s)

/-- R123. -/
def execAnd (a b : RegIdx) (s : State) : Host.Outcome State Fault Refusal :=
  .next (regPairOp (fun va vb => va &&& vb) a b s)

/-- R124. -/
def execOr (a b : RegIdx) (s : State) : Host.Outcome State Fault Refusal :=
  .next (regPairOp (fun va vb => va ||| vb) a b s)

end Sys2Proof.Machine
end

