-- ==== Sys2Proof/Machine/ByteLoad.lean ====
section
/-! DEFINITION. The byte-immediate instructions LDL and LDH (spec/44_byte_load.md): the 8-bit immediate replaces one
byte of a register; no store is read. -/

namespace Sys2Proof.Machine

/-- R140. -/
def execLdl (a : RegIdx) (imm : Byte) (s : State) : Host.Outcome State Fault Refusal :=
  .next (s.writeReg a (withLowByte (s.readReg a) imm))

/-- R141. -/
def execLdh (a : RegIdx) (imm : Byte) (s : State) : Host.Outcome State Fault Refusal :=
  .next (s.writeReg a (withHighByte (s.readReg a) imm))

end Sys2Proof.Machine
end

