-- ==== Sys2Proof/Machine/CompareBranch.lean ====
section
/-! DEFINITION. Compare and control transfer: CMP, JE, JMP (spec/45_compare_branch.md). The state they act on already
holds the incremented `pc`, which a jump overwrites (spec/41_instruction_cycle.md R102). -/

namespace Sys2Proof.Machine

/-- R150: the flag is always written, to 1 or to 0. -/
def execCmp (a b : RegIdx) (s : State) : Host.Outcome State Fault Refusal :=
  .next (s.setFlag (equalFlag (s.readReg a) (s.readReg b)))

/-- R151: the flag is read and not changed. -/
def execJe (addr : Addr) (s : State) : Host.Outcome State Fault Refusal :=
  .next (if s.flag then s.setPc (jumpTarget addr) else s)

/-- R152. -/
def execJmp (addr : Addr) (s : State) : Host.Outcome State Fault Refusal :=
  .next (s.setPc (jumpTarget addr))

end Sys2Proof.Machine
end

