-- ==== Sys2Proof/Machine/HaltUnknown.lean ====
section
/-! DEFINITION. HLT and the undefined opcodes (spec/47_halt_unknown.md). The execute phase of both changes nothing; a
HLT stops the machine through the word its fetch has put into `IR` (spec/41_instruction_cycle.md R105). -/

namespace Sys2Proof.Machine

/-- R170. -/
def execHlt (s : State) : Host.Outcome State Fault Refusal := .next s

/-- R171: a silent no-op, whatever the opcode value and the low bits. -/
def execUnk (_op : BitVec 5) (_low : BitVec 11) (s : State) : Host.Outcome State Fault Refusal := .next s

end Sys2Proof.Machine
end

