-- ==== Sys2Proof/Machine/LoadStore.lean ====
section
/-! DEFINITION. Data-store access: LD and ST (spec/46_load_store.md), one whole word at an absolute address. -/

namespace Sys2Proof.Machine

/-- R160. -/
def execLd (a : RegIdx) (addr : Addr) (s : State) : Host.Outcome State Fault Refusal :=
  .next (s.writeReg a (s.dmem.read (dataAddress addr)))

/-- R161. -/
def execSt (a : RegIdx) (addr : Addr) (s : State) : Host.Outcome State Fault Refusal :=
  .next (s.storeData (dataAddress addr) (s.readReg a))

end Sys2Proof.Machine
end

