-- ==== Sys2Proof/Machine/Shift.lean ====
section
/-! DEFINITION. The shifts SL, SR, SRA (spec/43_shift.md): one place, in place; the bit shifted out is lost. -/

namespace Sys2Proof.Machine

/-- `x[A] <- op(x[A])`. -/
def regOp (op : Word → Word) (a : RegIdx) (s : State) : State := s.writeReg a (op (s.readReg a))

/-- R130. -/
def shiftLeft1 (w : Word) : Word := w <<< 1

/-- R131: zero fill. -/
def shiftRight1 (w : Word) : Word := w >>> 1

/-- R132: the old bit 15 is kept. -/
def shiftRightArith1 (w : Word) : Word := (w &&& 0x8000#16) ||| (w >>> 1)

/-- R130. -/
def execSl (a : RegIdx) (s : State) : Host.Outcome State Fault Refusal := .next (regOp shiftLeft1 a s)

/-- R131. -/
def execSr (a : RegIdx) (s : State) : Host.Outcome State Fault Refusal := .next (regOp shiftRight1 a s)

/-- R132. -/
def execSra (a : RegIdx) (s : State) : Host.Outcome State Fault Refusal := .next (regOp shiftRightArith1 a s)

end Sys2Proof.Machine
end

