-- ==== Sys2Proof/Machine/Dispatch.lean ====
section
/-! DEFINITION. EXECUTE (spec/41_instruction_cycle.md R104): one arm per instruction. `exec` acts on the state after the
fetch, in which `IR` holds the fetched word and `pc` the next sequential address (R102). -/

namespace Sys2Proof.Machine

def exec (i : Instr) (s : State) : Host.Outcome State Fault Refusal :=
  match i with
  | .mov a b => Sys2Proof.Machine.execMov a b s
  | .add a b => Sys2Proof.Machine.execAdd a b s
  | .sub a b => Sys2Proof.Machine.execSub a b s
  | .and a b => Sys2Proof.Machine.execAnd a b s
  | .or a b => Sys2Proof.Machine.execOr a b s
  | .sl a => Sys2Proof.Machine.execSl a s
  | .sr a => Sys2Proof.Machine.execSr a s
  | .sra a => Sys2Proof.Machine.execSra a s
  | .ldl a imm => Sys2Proof.Machine.execLdl a imm s
  | .ldh a imm => Sys2Proof.Machine.execLdh a imm s
  | .cmp a b => Sys2Proof.Machine.execCmp a b s
  | .je addr => Sys2Proof.Machine.execJe addr s
  | .jmp addr => Sys2Proof.Machine.execJmp addr s
  | .ld a addr => Sys2Proof.Machine.execLd a addr s
  | .st a addr => Sys2Proof.Machine.execSt a addr s
  | .hlt => Sys2Proof.Machine.execHlt s
  | .unk op low => Sys2Proof.Machine.execUnk op low s

end Sys2Proof.Machine
end

