-- ==== Sys2Proof/Machine/Cycle.lean ====
section
/-! DEFINITION. The whole instruction cycle with the observer record it emits (spec/41_instruction_cycle.md R100,
R108). The record is an output beside the next state, since the state is exactly the tuple of R20 (log 5). -/

namespace Sys2Proof.Machine

/-- Decode and execute the word in `IR` (R103, R104), then emit the record: the address `p` it was fetched from, the
raw word, and the registers as they now are (R108). -/
def executeAndNotify (p : Word) (f : State) : Host.Outcome (State × ObserverRecord) Fault Refusal :=
  andThen (exec (decode f.ir) f) fun t => .next (t, ⟨p, f.ir, t.x⟩)

/-- One cycle (R100): a halted machine has no step (R105); otherwise fetch, decode, execute, notify. -/
def cycle (s : State) : Host.Outcome (State × ObserverRecord) Fault Refusal :=
  if s.halted then .refused .halted else andThen (fetch s) (executeAndNotify s.pc)

/-- Make the next fetch possible: a `pc` outside the instruction store becomes 0, and a halted machine gets the reset
value of `IR`. A state that already fetches is unchanged (log 16). -/
def fetchReady (s : State) : State :=
  { s with
    pc := if s.pc.toNat < Config.imemWords then s.pc else 0
    ir := if s.halted then 0 else s.ir }

/-- The word of `nbits` bits stored at the `pc` of a state (an instruction is one 16-bit word, 30_encoding.md R50). -/
def placeAtPc (s : State) (nbits w : Nat) : State :=
  { s with imem := s.imem.write (s.pc.setWidth 8) (BitVec.ofNat 16 (w % 2 ^ nbits)) }

end Sys2Proof.Machine
end

