-- ==== Sys2Proof/Machine/Step.lean ====
section
/-! DEFINITION. The step: the instruction cycle without its observer record. -/

namespace Sys2Proof.Machine

/-- One step (spec/41_instruction_cycle.md R100). -/
def step (s : State) : Host.Outcome State Fault Refusal := andThen (cycle s) fun q => .next q.1

/-- `s` with the word stored where the next step fetches, and able to fetch (logs 4, 16): it stands for the load of a
program from outside the machine (spec/10_state.md R22). -/
def State.withFetchWord (s : State) (nbits w : Nat) : State := placeAtPc (fetchReady s) nbits w

end Sys2Proof.Machine
end

