-- ==== Sys2Proof/Machine/Pseudocode.lean ====
section
/-! DEFINITION. The spec's own pseudocode of a step (spec/41_instruction_cycle.md R100, R104), written over natural
numbers and functions and read straight from the bits of the fetched word. It shares no definition with the decoder or
the meanings, so that an obligation can say that the machine agrees with it. -/

namespace Sys2Proof.Machine

/-- The state tuple of 10_state.md R20 with plain numbers. -/
structure AbsState where
  x : Nat → Nat
  pc : Nat
  flag : Nat
  ir : Nat
  imem : Nat → Nat
  dmem : Nat → Nat

/-- What a step of the pseudocode does: it emits a record beside the next state, faults, or is not enabled (R182). -/
inductive AbsOutcome where
  | next (s : AbsState) (p w : Nat) (regs : Nat → Nat)
  | fault (pc : Nat)
  | halted
  | refused

/-- A function changed at one place. -/
def setAt (f : Nat → Nat) (i v : Nat) : Nat → Nat := fun j => if j = i then v else f j

/-- The table of R104 on the fields of the fetched word; `f8` is both `imm` and `address`. -/
def absExecute (op A B f8 : Nat) (S : AbsState) : AbsState :=
  match op with
  | 0 => { S with x := setAt S.x A (S.x B) }
  | 1 => { S with x := setAt S.x A ((S.x A + S.x B) % 65536) }
  | 2 => { S with x := setAt S.x A ((S.x A + 65536 - S.x B) % 65536) }
  | 3 => { S with x := setAt S.x A (S.x A &&& S.x B) }
  | 4 => { S with x := setAt S.x A (S.x A ||| S.x B) }
  | 5 => { S with x := setAt S.x A ((2 * S.x A) % 65536) }
  | 6 => { S with x := setAt S.x A (S.x A / 2) }
  | 7 => { S with x := setAt S.x A (S.x A / 32768 * 32768 + S.x A / 2) }
  | 8 => { S with x := setAt S.x A (S.x A / 256 * 256 + f8) }
  | 9 => { S with x := setAt S.x A (f8 * 256 + S.x A % 256) }
  | 10 => { S with flag := if S.x A = S.x B then 1 else 0 }
  | 11 => if S.flag = 1 then { S with pc := f8 } else S
  | 12 => { S with pc := f8 }
  | 13 => { S with x := setAt S.x A (S.dmem f8) }
  | 14 => { S with dmem := setAt S.dmem f8 (S.x A) }
  | _ => S

/-- The step of R100, line by line. -/
def absStep (S : AbsState) : AbsOutcome :=
  if S.ir / 2048 % 32 = 15 then .halted
  else if 256 ≤ S.pc then .fault S.pc
  else
    let p := S.pc
    let w := S.imem p
    let S1 := { S with ir := w, pc := (p + 1) % 65536 }
    let S2 := absExecute (w / 2048 % 32) (w / 256 % 8) (w / 32 % 8) (w % 256) S1
    .next S2 p w S2.x

/-- A register file as a function; there are eight registers. -/
def absRegs (x : Vector Word 8) : Nat → Nat := fun i => if h : i < 8 then x[i].toNat else 0

/-- A store as a function; it has 256 words. -/
def absStore (m : Memory) : Nat → Nat := fun a => if a < 256 then (m.read (BitVec.ofNat 8 a)).toNat else 0

/-- The machine's state as the pseudocode sees it. -/
def State.abs (s : State) : AbsState where
  x := absRegs s.x
  pc := s.pc.toNat
  flag := if s.flag then 1 else 0
  ir := s.ir.toNat
  imem := absStore s.imem
  dmem := absStore s.dmem

/-- The outcome of a cycle as the pseudocode sees it. -/
def absOutcome (o : Host.Outcome (State × ObserverRecord) Fault Refusal) : AbsOutcome :=
  match o with
  | .next (t, r) => .next t.abs r.programCounter.toNat r.instructionWord.toNat (absRegs r.registers)
  | .fault (.fetchOutOfRange pc) => .fault pc.toNat
  | .refused .halted => .halted
  | .refused _ => .refused

end Sys2Proof.Machine
end

