-- ==== Sys2Proof/Machine/Loader.lean ====
section
/-! DEFINITION. Load, reset again, and the host's read (spec/10_state.md R22, R24; spec/70_reset_and_hazards.md R200 to
R204). None of these acts during a run. -/

namespace Sys2Proof.Machine

/-- Write words at successive addresses from `a` on. A word that would fall beyond address 255 is not written (R203
asks for at most 256 words; log 15). -/
def Memory.loadAt (m : Memory) (a : Nat) : List Word → Memory
  | [] => m
  | w :: ws => if a < Config.imemWords then Memory.loadAt (m.write (BitVec.ofNat 8 a) w) (a + 1) ws else m

/-- The load image of a loader that writes `ws` at addresses 0 .. N-1 (R203). -/
def loadImage (ws : List Word) : Memory := Memory.loadAt [] 0 ws

/-- The loader's whole effect: it writes the instruction store and nothing else (R22). Into a store that already holds an
image, a load of N words keeps the old words at N .. 255; the spec knows one load, before the first step, and leaves
this open (DESIGN CHOICE, unsafe, log 21). -/
def State.load (s : State) (ws : List Word) : State := { s with imem := s.imem.loadAt 0 ws }

/-- The state in which the first step of a run begins: reset values, then the load (R202). -/
def State.boot (ws : List Word) : State := State.resetWith (loadImage ws)

/-- Reset applied to a machine that has run, halted or faulted (R200, D14): the load image is what the instruction
store holds, since no step changes it (20_memory.md R39; DEDUCED, log 14). -/
def State.resetAgain (s : State) : State := State.resetWith s.imem

/-- What the host reads: after the halt, any word of the data store (R24); during a run, nothing (D18). -/
def State.hostRead (s : State) (a : Addr) : Option Word := if s.halted then some (s.dmem.read a) else none

/-- The reference host reads one word (R24). -/
def State.hostResult (s : State) : Option Word := s.hostRead Config.resultAddr

/-- The listing of the reference program (R204). -/
def referenceListing : List Instr :=
  [ .ldh 0 0, .ldl 0 0, .ldh 1 0, .ldl 1 1, .ldh 2 0, .ldl 2 0, .ldh 3 0, .ldl 3 10,
    .add 2 1, .add 0 2, .st 0 64, .cmp 2 3, .je 14, .jmp 8, .hlt ]

/-- The reference load image (R204): the listing, encoded, at addresses 0..14. -/
def referenceImage : Memory := loadImage (referenceListing.map encode)

end Sys2Proof.Machine
end

