-- ==== Sys2Proof/Machine/Run.lean ====
section
/-! DEFINITION. Runs (spec/41_instruction_cycle.md R106 to R110): steps repeated until the machine is halted or has
faulted, under a harness's step limit, with the observer records in program order. -/

namespace Sys2Proof.Machine

/-- How a bounded run ends (R109, R110). -/
inductive RunEnd where
  /-- The machine is halted: a completed run (R106). -/
  | completed
  /-- A step raised a fault: the run is not completed (R182). -/
  | faulted (f : Fault)
  /-- The step limit is used up: a verdict of the harness, not a state of the machine (R110). -/
  | notFinished
  /-- A meaning refused. No step of this model answers it. -/
  | stopped (r : Refusal)
deriving DecidableEq, Repr

/-- A bounded run: its last state, its records in program order, and how it ended. -/
structure RunResult where
  final : State
  trace : List ObserverRecord
  ending : RunEnd
deriving DecidableEq, Repr

/-- At most `fuel` steps from a state (R109, R110). -/
def run : Nat → State → RunResult
  | 0, s => ⟨s, [], if s.halted then .completed else .notFinished⟩
  | fuel + 1, s =>
    if s.halted then ⟨s, [], .completed⟩
    else
      match cycle s with
      | .next (t, r) => let rest := run fuel t; { rest with trace := r :: rest.trace }
      | .fault f => ⟨s, [], .faulted f⟩
      | .refused r => ⟨s, [], .stopped r⟩

end Sys2Proof.Machine
end

