-- ==== Sys2Proof/Safety.lean ====
section
/-! DEFINITION. What a safe state and a safe run are, and the words in which frames are stated: what an instruction
reads, what it writes, and what is left alone. -/

namespace Sys2Proof.Machine

/-! ## The invariant -/

/-- The invariant of the machine: both stores keep their canonical form; `pc` stays in 0..256 (spec/10_state.md R13);
and `pc` is 256 only after a step that fetched from 255 and did not jump (R13, 60_exceptions.md R181). -/
abbrev State.Inv (s : State) : Prop :=
  s.imem.wf ∧ s.dmem.wf ∧ s.pc.toNat ≤ Config.imemWords ∧
    (s.pc.toNat = Config.imemWords →
      s.ir = s.imem.read 255 ∧ (∀ addr, decode s.ir ≠ .jmp addr) ∧
        (s.flag = true → ∀ addr, decode s.ir ≠ .je addr))

/-- The states a run can reach from a reset with a given load image (41_instruction_cycle.md R109). -/
inductive Reachable (image : Memory) : State → Prop
  | boot : Reachable image (State.resetWith image)
  | step {s t : State} : Reachable image s → step s = .next t → Reachable image t

/-- Zero or more steps, none of which runs an instruction that `p` picks out. -/
inductive StepsWithout (p : Instr → Bool) : State → State → Prop
  | refl (s : State) : StepsWithout p s s
  | step {s t u : State} : p (decode s.wordAtPc) = false → step s = .next t → StepsWithout p t u →
      StepsWithout p s u

/-! ## Frames -/

/-- Every word reads the same in both stores. -/
def SameWords (m n : Memory) : Prop := ∀ a : Addr, n.read a = m.read a

/-- Nothing but register `a` differs. -/
def OnlyReg (a : RegIdx) (s t : State) : Prop :=
  (∀ r, r ≠ a → t.readReg r = s.readReg r) ∧ t.pc = s.pc ∧ t.flag = s.flag ∧ t.ir = s.ir ∧
    SameWords s.imem t.imem ∧ SameWords s.dmem t.dmem

/-- Nothing but the flag differs. -/
def OnlyFlag (s t : State) : Prop :=
  (∀ r, t.readReg r = s.readReg r) ∧ t.pc = s.pc ∧ t.ir = s.ir ∧
    SameWords s.imem t.imem ∧ SameWords s.dmem t.dmem

/-- Nothing but `pc` differs. -/
def OnlyPc (s t : State) : Prop :=
  (∀ r, t.readReg r = s.readReg r) ∧ t.flag = s.flag ∧ t.ir = s.ir ∧
    SameWords s.imem t.imem ∧ SameWords s.dmem t.dmem

/-- Nothing but the data-store word at `a` differs. -/
def OnlyDataWord (a : Addr) (s t : State) : Prop :=
  (∀ r, t.readReg r = s.readReg r) ∧ t.pc = s.pc ∧ t.flag = s.flag ∧ t.ir = s.ir ∧
    SameWords s.imem t.imem ∧ ∀ c : Addr, c ≠ a → t.dmem.read c = s.dmem.read c

/-- The outcome with its next state changed by `f`; a fault or a refusal stays. It says that two runs of one
instruction differ only in what `f` changes. -/
def mapNext (f : State → State) (o : Host.Outcome State Fault Refusal) : Host.Outcome State Fault Refusal :=
  andThen o fun t => .next (f t)

end Sys2Proof.Machine

namespace Sys2Proof

open Machine

/-! ## The read and write table of 10_state.md R11 -/

/-- The registers an instruction reads (R11, column "Reads"). -/
def Instr.readsReg (i : Instr) (r : RegIdx) : Bool :=
  match i with
  | .mov _ b => r == b
  | .add a b | .sub a b | .and a b | .or a b | .cmp a b => r == a || r == b
  | .sl a | .sr a | .sra a => r == a
  | .ldl a _ | .ldh a _ => r == a
  | .st a _ => r == a
  | .ld _ _ | .je _ | .jmp _ | .hlt | .unk _ _ => false

/-- The registers an instruction writes (R11, column "Writes"). -/
def Instr.writesReg (i : Instr) (r : RegIdx) : Bool :=
  match i with
  | .mov a _ | .add a _ | .sub a _ | .and a _ | .or a _ => r == a
  | .sl a | .sr a | .sra a => r == a
  | .ldl a _ | .ldh a _ => r == a
  | .ld a _ => r == a
  | .cmp _ _ | .st _ _ | .je _ | .jmp _ | .hlt | .unk _ _ => false

/-- A CMP, the only instruction that writes the flag (R14). -/
def Instr.isCmp (i : Instr) : Bool :=
  match i with
  | .cmp _ _ => true
  | .mov _ _ | .add _ _ | .sub _ _ | .and _ _ | .or _ _ | .sl _ | .sr _ | .sra _ | .ldl _ _ | .ldh _ _
  | .je _ | .jmp _ | .ld _ _ | .st _ _ | .hlt | .unk _ _ => false

/-- A JE, the only instruction that reads the flag (R14). -/
def Instr.isJe (i : Instr) : Bool :=
  match i with
  | .je _ => true
  | .mov _ _ | .add _ _ | .sub _ _ | .and _ _ | .or _ _ | .sl _ | .sr _ | .sra _ | .ldl _ _ | .ldh _ _
  | .cmp _ _ | .jmp _ | .ld _ _ | .st _ _ | .hlt | .unk _ _ => false

/-- An LD, the only instruction that reads the data store (20_memory.md R33). -/
def Instr.isLd (i : Instr) : Bool :=
  match i with
  | .ld _ _ => true
  | .mov _ _ | .add _ _ | .sub _ _ | .and _ _ | .or _ _ | .sl _ | .sr _ | .sra _ | .ldl _ _ | .ldh _ _
  | .cmp _ _ | .je _ | .jmp _ | .st _ _ | .hlt | .unk _ _ => false

/-- An ST, the only instruction that writes the data store (R33). -/
def Instr.isSt (i : Instr) : Bool :=
  match i with
  | .st _ _ => true
  | .mov _ _ | .add _ _ | .sub _ _ | .and _ _ | .or _ _ | .sl _ | .sr _ | .sra _ | .ldl _ _ | .ldh _ _
  | .cmp _ _ | .je _ | .jmp _ | .ld _ _ | .hlt | .unk _ _ => false

/-- An ST to the data word at `c`. -/
def Instr.storesTo (c : Addr) (i : Instr) : Bool :=
  match i with
  | .st _ addr => dataAddress addr == c
  | .mov _ _ | .add _ _ | .sub _ _ | .and _ _ | .or _ _ | .sl _ | .sr _ | .sra _ | .ldl _ _ | .ldh _ _
  | .cmp _ _ | .je _ | .jmp _ | .ld _ _ | .hlt | .unk _ _ => false

/-- The target of the jump an instruction takes when the flag is `flag`; `none` when it does not jump (R13). -/
def Instr.jumpTaken (i : Instr) (flag : Bool) : Option Word :=
  match i with
  | .jmp addr => some (jumpTarget addr)
  | .je addr => if flag then some (jumpTarget addr) else none
  | .mov _ _ | .add _ _ | .sub _ _ | .and _ _ | .or _ _ | .sl _ | .sr _ | .sra _ | .ldl _ _ | .ldh _ _
  | .cmp _ _ | .ld _ _ | .st _ _ | .hlt | .unk _ _ => none

end Sys2Proof
end

