-- ==== Sys2Proof/Certificates/Slice0/Obligations.lean ====
section
/-! DEFINITION. The statements for the provers. Each docstring names the rule of spec/ it formalises. A statement whose
words rest on a decision of the spec (D1 to D18) or of the model says so and names it.
In every statement about `exec`, the state `s` is the state after the fetch (spec/41_instruction_cycle.md R102). -/

open Sys2Proof Sys2Proof.Machine

/-! ## Encoding -/

/-- 40_codec.md R90 to R94: each projection is the bit field the rule gives, on all 65536 words. -/
def Obligations.ProjectionsReadTheirBits : Prop :=
  ∀ w : Word,
    (opcode w).toNat = (w.toNat >>> 11) &&& 0x1F ∧
    (registerA w).toNat = (w.toNat >>> 8) &&& 0x7 ∧
    (registerB w).toNat = (w.toNat >>> 5) &&& 0x7 ∧
    (immediate w).toNat = w.toNat &&& 0xFF ∧
    address w = immediate w

/-- Words written out bit by bit from the spec's encodings decode to the instructions they stand for, one or more of
each family (30_encoding.md R51, R55; 95_test_vectors.md 2.2). The opcode numbers are the spec's decision D1 (log 6). -/
def Obligations.SpecWordsDecode : Prop :=
  decode 0b00000_001_011_00000#16 = .mov 1 3 ∧
  decode 0b00001_010_001_11111#16 = .add 2 1 ∧
  decode 0b00101_111_11111111#16 = .sl 7 ∧
  decode 0b01000_011_00001010#16 = .ldl 3 10 ∧
  decode 0b01010_010_011_00000#16 = .cmp 2 3 ∧
  decode 0b01011_111_00001110#16 = .je 14 ∧
  decode 0b01101_010_00010000#16 = .ld 2 16 ∧
  decode 0b01110_000_01000000#16 = .st 0 64 ∧
  decode 0b01111_11111111111#16 = .hlt ∧
  decode 0b10000_11111111111#16 = .unk 16 0x7FF

/-- 40_codec.md R95, R96, R98: decode after encode is the identity on every well-formed instruction with every operand,
and encode after decode clears exactly the unused bits. Opcode numbers are D1 (log 6); that UNK, which has no encoder
(D4), is encoded as its raw word is the model's choice (log 11). -/
def Obligations.DecodeAndEncodeAgree : Prop :=
  (∀ i : Instr, i.wf = true → decode (encode i) = i) ∧
  (∀ w : Word, (decode w).wf = true ∧ encode (decode w) = w &&& usedMask (decode w).format)

/-- 40_codec.md R96: each operand a format uses comes back from its projection, for in-range operands, and the opcode
field holds the encoder's number. The numbers are the spec's decision D1 (log 6). -/
def Obligations.EncodedFieldsComeBack : Prop :=
  ∀ ra rb f8 : Word, ra.toNat < 8 → rb.toNat < 8 → f8.toNat < 256 →
    (∀ e ∈ [(encMOV, 0#5), (encADD, 1), (encSUB, 2), (encAND, 3), (encOR, 4), (encCMP, 10)],
      opcode (e.1 ra rb) = e.2 ∧ (registerA (e.1 ra rb)).toNat = ra.toNat ∧
        (registerB (e.1 ra rb)).toNat = rb.toNat) ∧
    (∀ e ∈ [(encSL, 5#5), (encSR, 6), (encSRA, 7)],
      opcode (e.1 ra) = e.2 ∧ (registerA (e.1 ra)).toNat = ra.toNat) ∧
    (∀ e ∈ [(encLDL, 8#5), (encLDH, 9), (encLD, 13), (encST, 14)],
      opcode (e.1 ra f8) = e.2 ∧ (registerA (e.1 ra f8)).toNat = ra.toNat ∧
        (immediate (e.1 ra f8)).toNat = f8.toNat ∧ (address (e.1 ra f8)).toNat = f8.toNat) ∧
    (∀ e ∈ [(encJE, 11#5), (encJMP, 12)],
      opcode (e.1 f8) = e.2 ∧ (address (e.1 f8)).toNat = f8.toNat) ∧
    opcode encHLT = 15

/-- 40_codec.md R97: every encoder takes its operands modulo 8 and 256, so for all 16-bit inputs the word decodes to the
instruction with the masked operands. -/
def Obligations.EncodersMaskOperands : Prop :=
  ∀ ra rb f8 : Word,
    (∀ e ∈ [(encMOV, Instr.mov), (encADD, Instr.add), (encSUB, Instr.sub), (encAND, Instr.and), (encOR, Instr.or),
        (encCMP, Instr.cmp)],
      e.1 ra rb = e.1 (ra &&& 0x7#16) (rb &&& 0x7#16) ∧ decode (e.1 ra rb) = e.2 (ra.setWidth 3) (rb.setWidth 3)) ∧
    (∀ e ∈ [(encSL, Instr.sl), (encSR, Instr.sr), (encSRA, Instr.sra)],
      e.1 ra = e.1 (ra &&& 0x7#16) ∧ decode (e.1 ra) = e.2 (ra.setWidth 3)) ∧
    (∀ e ∈ [(encLDL, Instr.ldl), (encLDH, Instr.ldh), (encLD, Instr.ld), (encST, Instr.st)],
      e.1 ra f8 = e.1 (ra &&& 0x7#16) (f8 &&& 0xFF#16) ∧ decode (e.1 ra f8) = e.2 (ra.setWidth 3) (f8.setWidth 8)) ∧
    (∀ e ∈ [(encJE, Instr.je), (encJMP, Instr.jmp)],
      e.1 f8 = e.1 (f8 &&& 0xFF#16) ∧ decode (e.1 f8) = e.2 (f8.setWidth 8)) ∧
    encMOV 9 3 = encMOV 1 3 ∧ encJMP 300 = encJMP 44

/-- 40_codec.md R89: the sixteen encoders are instances of one formula. Opcode numbers are D1 (log 6). -/
def Obligations.EncodersAreOneFormula : Prop :=
  ∀ ra rb f8 : Word,
    encMOV ra rb = encodeFields 0 .RR ra rb f8 ∧ encADD ra rb = encodeFields 1 .RR ra rb f8 ∧
    encSUB ra rb = encodeFields 2 .RR ra rb f8 ∧ encAND ra rb = encodeFields 3 .RR ra rb f8 ∧
    encOR ra rb = encodeFields 4 .RR ra rb f8 ∧ encSL ra = encodeFields 5 .R ra rb f8 ∧
    encSR ra = encodeFields 6 .R ra rb f8 ∧ encSRA ra = encodeFields 7 .R ra rb f8 ∧
    encLDL ra f8 = encodeFields 8 .RI ra rb f8 ∧ encLDH ra f8 = encodeFields 9 .RI ra rb f8 ∧
    encCMP ra rb = encodeFields 10 .RR ra rb f8 ∧ encJE f8 = encodeFields 11 .J ra rb f8 ∧
    encJMP f8 = encodeFields 12 .J ra rb f8 ∧ encLD ra f8 = encodeFields 13 .RM ra rb f8 ∧
    encST ra f8 = encodeFields 14 .RM ra rb f8 ∧ encHLT = encodeFields 15 .N ra rb f8

/-- 40_codec.md R99: encoding is injective, and what the encoders produce is the canonical words whose opcode is at most
15. Opcode numbers are D1 (log 6). -/
def Obligations.EncodersProduceCanonicalWords : Prop :=
  (∀ i j : Instr, i.wf = true → j.wf = true → encode i = encode j → i = j) ∧
  ∀ w : Word, (∃ i : Instr, i.format ≠ .none ∧ encode i = w) ↔ (opcode w).toNat ≤ 15 ∧ Canonical w

/-- 30_encoding.md R55, R57: a word is the instruction of a row exactly when the row's masked bits match, and every word
matches a row. Opcode numbers are D1 (log 6). -/
def Obligations.OpcodeTableSelectsInstruction : Prop :=
  ∀ w : Word,
    (∀ row ∈ opcodeTable, (w &&& row.mask = row.pattern ↔ (decode w).mnemonic = row.mnemonic)) ∧
    ∃ row ∈ opcodeTable, w &&& row.mask = row.pattern ∧ (decode w).format = row.format

/-- 30_encoding.md R58: words that differ only in unused bits are the same instruction, and the encoders write 0 in
every unused bit (D2, log 13). -/
def Obligations.UnusedBitsAreIgnored : Prop :=
  (∀ v w : Word, v &&& usedMask (decode w).format = w &&& usedMask (decode w).format → decode v = decode w) ∧
  (∀ i : Instr, encode i &&& usedMask i.format = encode i)

/-- 30_encoding.md R60: every one of the 65536 words decodes to an instruction, and every instruction executes without
error in every state. -/
def Obligations.EveryWordDecodesAndExecutes : Prop :=
  ∀ w : Word, (decode w).wf = true ∧ ∀ s : State, ∃ t, exec (decode w) s = .next t

/-! ## What each instruction does: it completes in every state, its result, and its frame -/

/-- 42_alu_register_pair.md R120 (effect, flags, exceptions): MOV copies `x[B]` to `x[A]` and changes nothing else. -/
def Obligations.MovCopiesRegister : Prop :=
  ∀ (a b : RegIdx) (s : State), ∃ t, exec (.mov a b) s = .next t ∧
    t.readReg a = s.readReg b ∧ t.readReg b = s.readReg b ∧ OnlyReg a s t

/-- R121 (effect, flags, exceptions, the case A = B): ADD is addition modulo 2^16, the carry is lost, and adding a
register to itself is SL. -/
def Obligations.AddWrapsAndDoubles : Prop :=
  ∀ (a b : RegIdx) (s : State),
    (∃ t, exec (.add a b) s = .next t ∧
      (t.readReg a).toNat = ((s.readReg a).toNat + (s.readReg b).toNat) % 2 ^ 16 ∧ OnlyReg a s t) ∧
    exec (.add a a) s = exec (.sl a) s

/-- R122 (effect, flags, exceptions, the case A = B): SUB is subtraction modulo 2^16. -/
def Obligations.SubWraps : Prop :=
  ∀ (a b : RegIdx) (s : State), ∃ t, exec (.sub a b) s = .next t ∧
    (t.readReg a).toNat = ((s.readReg a).toNat + 0x10000 - (s.readReg b).toNat) % 2 ^ 16 ∧
    (a = b → t.readReg a = 0) ∧ OnlyReg a s t

/-- R123, R124 (effect, flags, exceptions): bit `k` of the result of AND is 1 exactly when it is 1 in both registers, of
OR exactly when it is 1 in either. -/
def Obligations.AndOrAreBitwise : Prop :=
  ∀ (a b : RegIdx) (s : State),
    (∃ t, exec (.and a b) s = .next t ∧ OnlyReg a s t ∧
      ∀ k < 16, (t.readReg a).getLsbD k = ((s.readReg a).getLsbD k && (s.readReg b).getLsbD k)) ∧
    (∃ t, exec (.or a b) s = .next t ∧ OnlyReg a s t ∧
      ∀ k < 16, (t.readReg a).getLsbD k = ((s.readReg a).getLsbD k || (s.readReg b).getLsbD k))

/-- 43_shift.md R130, R131, R132 (effect, flags, exceptions): the result bits of SL, SR and SRA, and the quotients that
R131 and R132 name. -/
def Obligations.ShiftsMoveBitsByOne : Prop :=
  ∀ (a : RegIdx) (s : State),
    (∃ t, exec (.sl a) s = .next t ∧ OnlyReg a s t ∧ (t.readReg a).getLsbD 0 = false ∧
      ∀ k < 15, (t.readReg a).getLsbD (k + 1) = (s.readReg a).getLsbD k) ∧
    (∃ t, exec (.sr a) s = .next t ∧ OnlyReg a s t ∧ (t.readReg a).getLsbD 15 = false ∧
      (∀ k < 15, (t.readReg a).getLsbD k = (s.readReg a).getLsbD (k + 1)) ∧
      (t.readReg a).toNat = (s.readReg a).toNat / 2) ∧
    (∃ t, exec (.sra a) s = .next t ∧ OnlyReg a s t ∧ (t.readReg a).getLsbD 15 = (s.readReg a).getLsbD 15 ∧
      (∀ k < 15, (t.readReg a).getLsbD k = (s.readReg a).getLsbD (k + 1)) ∧
      (t.readReg a).toInt = (s.readReg a).toInt / 2)

/-- 44_byte_load.md R140, R141 (effect, flags, exceptions): the immediate replaces one byte, the other byte is kept. -/
def Obligations.ByteLoadsReplaceOneByte : Prop :=
  ∀ (a : RegIdx) (imm : Byte) (s : State),
    (∃ t, exec (.ldl a imm) s = .next t ∧ OnlyReg a s t ∧
      (t.readReg a).extractLsb' 0 8 = imm ∧ (t.readReg a).extractLsb' 8 8 = (s.readReg a).extractLsb' 8 8) ∧
    (∃ t, exec (.ldh a imm) s = .next t ∧ OnlyReg a s t ∧
      (t.readReg a).extractLsb' 8 8 = imm ∧ (t.readReg a).extractLsb' 0 8 = (s.readReg a).extractLsb' 0 8)

/-- 44_byte_load.md R142: LDH and LDL of the two bytes of a constant, in either order, leave that constant, whatever the
register held before, and nothing else is changed. -/
def Obligations.BytePairLoadsConstant : Prop :=
  ∀ (a : RegIdx) (k : Word) (s : State),
    (∃ t u, exec (.ldh a (k.extractLsb' 8 8)) s = .next t ∧ exec (.ldl a (k.extractLsb' 0 8)) t = .next u ∧
      u.readReg a = k ∧ OnlyReg a s u) ∧
    (∃ t u, exec (.ldl a (k.extractLsb' 0 8)) s = .next t ∧ exec (.ldh a (k.extractLsb' 8 8)) t = .next u ∧
      u.readReg a = k ∧ OnlyReg a s u)

/-- 45_compare_branch.md R150 (effect, exceptions): CMP writes the flag, 1 when all 16 bits agree and 0 when not; a
register always equals itself; nothing else is changed. -/
def Obligations.CmpWritesFlag : Prop :=
  ∀ (a b : RegIdx) (s : State), ∃ t, exec (.cmp a b) s = .next t ∧
    (t.flag = true ↔ ∀ k < 16, (s.readReg a).getLsbD k = (s.readReg b).getLsbD k) ∧
    (a = b → t.flag = true) ∧ OnlyFlag s t

/-- R151 (effect, flags, exceptions): JE with the flag 1 writes the zero-extended address to `pc`, with the flag 0 leaves
the incremented `pc`; the flag is kept. -/
def Obligations.JeJumpsOnFlag : Prop :=
  ∀ (addr : Addr) (s : State), ∃ t, exec (.je addr) s = .next t ∧
    (s.flag = true → t.pc.toNat = addr.toNat) ∧ (s.flag = false → t.pc = s.pc) ∧ OnlyPc s t

/-- R152 (effect, flags, exceptions): JMP writes the zero-extended address to `pc`. -/
def Obligations.JmpJumps : Prop :=
  ∀ (addr : Addr) (s : State), ∃ t, exec (.jmp addr) s = .next t ∧ t.pc.toNat = addr.toNat ∧ OnlyPc s t

/-- 46_load_store.md R160 (effect, flags, exceptions): LD copies the whole data word to `x[A]`. -/
def Obligations.LdLoadsWord : Prop :=
  ∀ (a : RegIdx) (addr : Addr) (s : State), ∃ t, exec (.ld a addr) s = .next t ∧
    t.readReg a = s.dmem.read (dataAddress addr) ∧ OnlyReg a s t

/-- R161 (effect, flags, exceptions): ST writes the whole register to the data word at its address, and every other word
of both stores reads as before. -/
def Obligations.StStoresWord : Prop :=
  ∀ (a : RegIdx) (addr : Addr) (s : State), ∃ t, exec (.st a addr) s = .next t ∧
    t.dmem.read (dataAddress addr) = s.readReg a ∧ OnlyDataWord (dataAddress addr) s t

/-- 47_halt_unknown.md R170, R171 (execute phase, flags, exceptions): HLT and every UNK complete and change nothing. -/
def Obligations.HltAndUnkExecuteNothing : Prop :=
  ∀ s : State, exec .hlt s = .next s ∧ ∀ (op : BitVec 5) (low : BitVec 11), exec (.unk op low) s = .next s

/-! ## Rules about all instructions -/

/-- 10_state.md R11: the table of registers read and written. An unlisted register is not written, at most one register
is written, and what an instruction does depends only on the listed registers as they were at its start. -/
def Obligations.RegisterReadsAndWrites : Prop :=
  ∀ (i : Instr) (s : State),
    (∀ t r, exec i s = .next t → i.writesReg r = false → t.readReg r = s.readReg r) ∧
    (∀ r q, i.writesReg r = true → i.writesReg q = true → r = q) ∧
    (∀ y : Vector Word 8, (∀ r, i.readsReg r = true → ({ s with x := y } : State).readReg r = s.readReg r) →
      ∃ t u, exec i s = .next t ∧ exec i { s with x := y } = .next u ∧
        (∀ r, i.writesReg r = true → u.readReg r = t.readReg r) ∧
        u.pc = t.pc ∧ u.flag = t.flag ∧ u.ir = t.ir ∧ u.imem = t.imem ∧ u.dmem = t.dmem)

/-- 10_state.md R14: the flag is written only by CMP, which writes 1 for equal registers and 0 for unequal ones, and read
only by JE. -/
def Obligations.FlagWrittenByCmpReadByJe : Prop :=
  (∀ (i : Instr) (s t : State), i.isCmp = false → exec i s = .next t → t.flag = s.flag) ∧
  (∀ (a b : RegIdx) (s : State), ∃ t, exec (.cmp a b) s = .next t ∧
    t.flag = decide (s.readReg a = s.readReg b)) ∧
  (∀ (i : Instr) (s : State) (f : Bool), i.isJe = false → i.isCmp = false →
    exec i { s with flag := f } = mapNext (fun t => { t with flag := f }) (exec i s)) ∧
  (∀ (a b : RegIdx) (s : State) (f : Bool), exec (.cmp a b) { s with flag := f } = exec (.cmp a b) s)

/-- 20_memory.md R33: LD reads one word of the data store, ST writes one, no other instruction touches it; a fetch reads
one word of the instruction store, the one at `pc`. -/
def Obligations.StoresAreTouchedOneWordAtATime : Prop :=
  (∀ (i : Instr) (s t : State), i.isSt = false → exec i s = .next t → t.dmem = s.dmem) ∧
  (∀ (a : RegIdx) (addr c : Addr) (s t : State), exec (.st a addr) s = .next t → c ≠ dataAddress addr →
    t.dmem.read c = s.dmem.read c) ∧
  (∀ (i : Instr) (s : State) (m : Memory), i.isLd = false → i.isSt = false →
    exec i { s with dmem := m } = mapNext (fun t => { t with dmem := m }) (exec i s)) ∧
  (∀ (a : RegIdx) (addr : Addr) (s : State) (m : Memory), m.read (dataAddress addr) = s.dmem.read (dataAddress addr) →
    exec (.ld a addr) { s with dmem := m } = mapNext (fun t => { t with dmem := m }) (exec (.ld a addr) s)) ∧
  (∀ (a : RegIdx) (addr : Addr) (s : State) (m : Memory),
    exec (.st a addr) { s with dmem := m } =
      mapNext (fun t => { t with dmem := m.write (dataAddress addr) (s.readReg a) }) (exec (.st a addr) s)) ∧
  (∀ (s : State) (m : Memory), m.read (s.pc.setWidth 8) = s.imem.read (s.pc.setWidth 8) →
    step { s with imem := m } = mapNext (fun t => { t with imem := m }) (step s))

/-- 10_state.md R12 and 41_instruction_cycle.md R102: `pc` starts at 0; a step that fetches leaves it one higher unless
it takes a jump, which overwrites it; no instruction reads `pc` as data. -/
def Obligations.PcIncrementedThenOverwrittenByJumps : Prop :=
  State.reset.pc = 0 ∧
  (∀ s : State, s.halted = false → s.pc.toNat < 256 →
    ∃ t, step s = .next t ∧ t.pc = ((decode s.wordAtPc).jumpTaken s.flag).getD (s.pc + 1)) ∧
  (∀ (i : Instr) (s : State) (p : Word),
    exec i { s with pc := p } = mapNext (fun t => { t with pc := (i.jumpTaken s.flag).getD p }) (exec i s))

/-! ## The step -/

/-- 41_instruction_cycle.md R100, R101, R103: when the machine is not halted and `pc` is inside the store, the step is
the execute phase of the instruction the word at `pc` decodes to, in the state whose `IR` holds that word and whose `pc`
is one higher. -/
def Obligations.StepRunsDecodedInstruction : Prop :=
  ∀ (s : State) (i : Instr), s.halted = false → s.pc.toNat < 256 → decode (s.imem.read (s.pc.setWidth 8)) = i →
    step s = exec i { s with ir := s.imem.read (s.pc.setWidth 8), pc := s.pc + 1 }

/-- 60_exceptions.md R182, R184 and 41 R100, R101, R105: a step is refused exactly when the machine is halted, faults
exactly when it is not halted and `pc` is 256 or more, and otherwise answers a next state. The fault is the spec's
decision D5 (log 7), the refusal `halted` the model's outcome for "halted: no step" (log 3). -/
def Obligations.StepHasThreeOutcomes : Prop :=
  ∀ s : State,
    (s.halted = true → step s = .refused .halted) ∧
    (s.halted = false → 256 ≤ s.pc.toNat → step s = .fault (.fetchOutOfRange s.pc)) ∧
    (s.halted = false → s.pc.toNat < 256 → ∃ t, step s = .next t)

/-- 60_exceptions.md R181: the fault follows exactly a step that fetched a non-HLT word from address 255 and took no
jump, and it records `pc` = 256. The fault is the spec's decision D5 (log 7). -/
def Obligations.FaultOnlyPastTheLastWord : Prop :=
  ∀ s t : State, step s = .next t →
    (∀ f, step t = .fault f → f = .fetchOutOfRange 256) ∧
    ((∃ f, step t = .fault f) ↔
      s.pc = 255 ∧ decode s.wordAtPc ≠ .hlt ∧ (decode s.wordAtPc).jumpTaken s.flag = none)

/-- 41_instruction_cycle.md R105, R106 and 47 R170: a step leaves the machine halted exactly when the word it fetched is
a HLT; that word gets a whole step, which changes only `IR` and `pc`; no further step is taken, even at address 255; and
the host can then read every data word (10_state.md R24). The number of the HLT opcode is D1 (log 6). -/
def Obligations.HltWordGetsItsOwnStep : Prop :=
  (∀ s t : State, step s = .next t → (t.halted = true ↔ decode s.wordAtPc = .hlt)) ∧
  (∀ s : State, s.halted = false → s.pc.toNat < 256 → decode s.wordAtPc = .hlt →
    ∃ t, step s = .next t ∧ t.ir = s.wordAtPc ∧ t.pc = s.pc + 1 ∧ t.flag = s.flag ∧
      (∀ r, t.readReg r = s.readReg r) ∧ SameWords s.imem t.imem ∧ SameWords s.dmem t.dmem ∧
      step t = .refused .halted ∧ ∀ a, t.hostRead a = some (s.dmem.read a))

/-- 30_encoding.md R59: a word whose opcode is 16 to 31 is UNK, whatever its low bits, and nothing else is; the step
that fetches it writes `IR` and `pc`, changes nothing else, emits its record, and the run continues. -/
def Obligations.UndefinedOpcodesStepAsNoOps : Prop :=
  (∀ w : Word, (∃ op low, decode w = .unk op low) ↔ 16 ≤ (opcode w).toNat) ∧
  (∀ s : State, s.halted = false → s.pc.toNat < 256 → 16 ≤ (opcode s.wordAtPc).toNat →
    cycle s = .next ({ s with ir := s.wordAtPc, pc := s.pc + 1 }, ⟨s.pc, s.wordAtPc, s.x⟩) ∧
      ({ s with ir := s.wordAtPc, pc := s.pc + 1 } : State).halted = false)

/-- 41_instruction_cycle.md R108 and 10_state.md R23: every step that answers a next state emits one record, which holds
the address the word was fetched from, the raw word, and the registers after the step; a faulting step emits none; and
the records of a run come in program order. That the record is an output beside the state is the model's choice
(log 5). -/
def Obligations.EveryStepEmitsItsRecord : Prop :=
  (∀ s t : State, step s = .next t ↔ cycle s = .next (t, ⟨s.pc, s.wordAtPc, t.x⟩)) ∧
  (∀ (s t : State) (r : ObserverRecord), cycle s = .next (t, r) → r = ⟨s.pc, s.wordAtPc, t.x⟩) ∧
  (∀ (s : State) (f : Fault), step s = .fault f → cycle s = .fault f) ∧
  (∀ (s t : State) (r : ObserverRecord) (n : Nat), cycle s = .next (t, r) →
    (run (n + 1) s).trace = r :: (run n t).trace ∧ (run (n + 1) s).final = (run n t).final)

/-- 45_compare_branch.md R153: a jump, taken, leads to its 8-bit address, and the step after it does not fault. -/
def Obligations.JumpsNeverLeaveTheStore : Prop :=
  ∀ (s t : State) (target : Word), step s = .next t → (decode s.wordAtPc).jumpTaken s.flag = some target →
    t.pc = target ∧ target.toNat < 256 ∧ ∃ u, step t = .next u

/-- The machine agrees with the spec's pseudocode (41_instruction_cycle.md R100, R104, R105, R108) in every state:
outcome, next state and record, computed from the bits of the fetched word. Opcode numbers are D1 (log 6), the fault D5
(log 7), `IR` as state D6 (log 8), the wrap of `pc` D13 (log 10). -/
def Obligations.CycleRefinesPseudocode : Prop :=
  ∀ s : State, absOutcome (cycle s) = absStep s.abs

/-! ## Invariants -/

/-- `State.Inv` (10_state.md R13, 60 R181; the canonical form of the stores is the model's, log 1) is kept by every
step from every state that has it. -/
def Obligations.StepKeepsInvariant : Prop :=
  ∀ s t : State, s.Inv → step s = .next t → t.Inv

/-- `State.Inv` holds after reset (10_state.md R26), whatever canonical load image is loaded, and after the boot of any
list of words. The canonical form inside `State.Inv` is the model's choice (log 1). 70_reset_and_hazards.md R203
describes lists of at most 256 words; that a longer list is cut to its first 256 words is the model's choice (log 15). -/
def Obligations.InvariantHoldsAtReset : Prop :=
  State.reset.Inv ∧ (∀ image : Memory, image.wf → (State.resetWith image).Inv) ∧
    ∀ ws : List Word, (State.boot ws).Inv

/-- 20_memory.md R39: no step changes the instruction store, so that in every reachable state a fetch from an address
returns the word the loader put there; and no instruction reads the store as data. -/
def Obligations.InstructionStoreNeverChanges : Prop :=
  (∀ s t : State, step s = .next t → t.imem = s.imem) ∧
  (∀ (image : Memory) (s : State), Reachable image s → ∀ a, s.imem.read a = image.read a) ∧
  (∀ (i : Instr) (s : State) (m : Memory),
    exec i { s with imem := m } = mapNext (fun t => { t with imem := m }) (exec i s))

/-- 10_state.md R13: in every state a run can reach, `pc` is in 0..256, and it is 256 only after a step that fetched from
address 255. The fault that keeps it there is the spec's decision D5 (log 7). -/
def Obligations.ReachablePcStaysInRange : Prop :=
  ∀ (image : Memory) (s : State), Reachable image s →
    s.pc.toNat ≤ 256 ∧ (s.pc = 256 → s.ir = image.read 255)

/-! ## Runs -/

/-- 20_memory.md R36: in program order, an LD of an address returns the value written by the latest earlier ST to it, or
the reset value if there is none; after the halt the host sees the final content of the data store. -/
def Obligations.LoadReturnsLatestStore : Prop :=
  (∀ (s0 s1 s2 s3 : State) (a b : RegIdx) (addr : Addr),
    decode s0.wordAtPc = .st a addr → step s0 = .next s1 → StepsWithout (Instr.storesTo (dataAddress addr)) s1 s2 →
    decode s2.wordAtPc = .ld b addr → step s2 = .next s3 → s3.readReg b = s0.readReg a) ∧
  (∀ (image : Memory) (s2 s3 : State) (b : RegIdx) (addr : Addr),
    StepsWithout (Instr.storesTo (dataAddress addr)) (State.resetWith image) s2 →
    decode s2.wordAtPc = .ld b addr → step s2 = .next s3 →
    s3.readReg b = (State.resetWith image).dmem.read (dataAddress addr)) ∧
  (∀ s : State, s.halted = true → ∀ a, s.hostRead a = some (s.dmem.read a))

/-- 45_compare_branch.md R151: the flag is latched. A JE jumps exactly when the registers of the latest earlier CMP were
equal at the time of that CMP; before any CMP it falls through (the flag's reset value 0 is the spec's decision D7,
log 9). -/
def Obligations.JeSeesTheLatestCmp : Prop :=
  (∀ (s0 s1 s2 s3 : State) (a b : RegIdx) (addr : Addr),
    decode s0.wordAtPc = .cmp a b → step s0 = .next s1 → StepsWithout Instr.isCmp s1 s2 →
    decode s2.wordAtPc = .je addr → step s2 = .next s3 →
    s3.pc = if s0.readReg a = s0.readReg b then addr.setWidth 16 else s2.pc + 1) ∧
  (∀ (image : Memory) (s2 s3 : State) (addr : Addr),
    StepsWithout Instr.isCmp (State.resetWith image) s2 →
    decode s2.wordAtPc = .je addr → step s2 = .next s3 → s3.pc = s2.pc + 1)

/-- 41_instruction_cycle.md R109: a bounded run that has completed or faulted is the same under every higher step limit;
a completed run ends halted, a faulted one with the fault of its last state, and one that is not finished has one record
for each step allowed. That the step limit is a verdict of the harness is R110 (log 20). -/
def Obligations.RunOutcomesAreStable : Prop :=
  (∀ (s : State) (n m : Nat), n ≤ m → (run n s).ending ≠ .notFinished → run m s = run n s) ∧
  (∀ (s : State) (n : Nat),
    ((run n s).ending = .completed ∧ (run n s).final.halted = true) ∨
    ((run n s).ending = .faulted (.fetchOutOfRange (run n s).final.pc) ∧ 256 ≤ (run n s).final.pc.toNat) ∨
    ((run n s).ending = .notFinished ∧ (run n s).final.halted = false ∧ (run n s).trace.length = n))

/-- 41_instruction_cycle.md R105, R106, R108: the last record of a completed run is that of its HLT word, which stays in
`IR`; `pc` is the address after it, and the record holds the final registers. -/
def Obligations.CompletedRunEndsWithHltRecord : Prop :=
  ∀ (s : State) (n : Nat), s.halted = false → (run n s).ending = .completed →
    ∃ r, (run n s).trace.getLast? = some r ∧ decode r.instructionWord = .hlt ∧
      (run n s).final.ir = r.instructionWord ∧ (run n s).final.pc = r.programCounter + 1 ∧
      (run n s).final.x = r.registers

/-! ## Reset and load -/

/-- 10_state.md R26, 70_reset_and_hazards.md R200, R201: the reset values; the machine is not halted and its first step
fetches from address 0; and reset may be applied again in any state. The zero of `IR`, the flag and the data store are
the spec's decisions D6, D7, D8 (logs 8, 9, 2), reset of a machine that has run D14 (log 14). -/
def Obligations.ResetValues : Prop :=
  ∀ image : Memory,
    (∀ r, (State.resetWith image).readReg r = 0) ∧ (State.resetWith image).pc = 0 ∧
    (State.resetWith image).flag = false ∧ (State.resetWith image).ir = 0 ∧
    (∀ a, (State.resetWith image).dmem.read a = 0) ∧ (State.resetWith image).imem = image ∧
    (State.resetWith image).halted = false ∧
    step (State.resetWith image) =
      exec (decode (image.read 0)) { State.resetWith image with ir := image.read 0, pc := 1 } ∧
    ∀ s : State, Reachable image s → s.resetAgain = State.resetWith image

/-- 70_reset_and_hazards.md R203 and 10_state.md R22: a loader that writes N words, N at most 256, leaves them at 0 .. N-1
and 0x0000 above (the spec's decision D9, log 2). Loading into any state replaces the words at 0 .. N-1 and keeps the
other instruction words: that a load over an earlier image keeps them is the model's choice (log 21). For lists of
every length, also over 256 words, which R203 does not describe and which the model cuts to their first 256 words
(log 15), only this is said: the stores that result are in the canonical form, which is the model's choice (log 1), and
a load writes nothing but the instruction store. -/
def Obligations.LoaderFillsInstructionStore : Prop :=
  (∀ ws : List Word, ws.length ≤ 256 → ∀ a : Addr, (loadImage ws).read a = ws.getD a.toNat 0) ∧
  (∀ (s : State) (ws : List Word), ws.length ≤ 256 → ∀ a : Addr,
    (s.load ws).imem.read a = ws.getD a.toNat (s.imem.read a)) ∧
  (∀ ws : List Word, (loadImage ws).wf ∧ (State.boot ws).imem = loadImage ws) ∧
  (∀ (s : State) (ws : List Word), s.imem.wf → (s.load ws).imem.wf) ∧
  (∀ (s : State) (ws : List Word), s.load ws = { s with imem := (s.load ws).imem })

/-- The model's load of one word (logs 4, 16): from every state, the next step runs exactly the instruction the decoder
reads from that word, and nothing but the instruction store is changed in a state that can fetch. -/
def Obligations.PlacedWordIsTheNextToRun : Prop :=
  ∀ (s : State) (w : Nat),
    (∃ i, decodeTableWord 16 w = some i ∧
      step (s.withFetchWord 16 w) = exec i (s.withFetchWord 16 w).fetched) ∧
    (s.halted = false → s.pc.toNat < 256 → s.withFetchWord 16 w = { s with imem := (s.withFetchWord 16 w).imem })
end

