-- ==== Sys2Proof/Laws/Codec.lean ====
section
/-! SUPPORT. What each projection reads from a word put together of operand fields: the lemmas from which the laws of
the codec (spec/40_codec.md R96 to R99) are assembled. -/

namespace Sys2Proof

theorem opcode_or (v w : Word) : opcode (v ||| w) = opcode v ||| opcode w := by
  unfold opcode; ext k hk; simp

theorem registerA_or (v w : Word) : registerA (v ||| w) = registerA v ||| registerA w := by
  unfold registerA; ext k hk; simp

theorem registerB_or (v w : Word) : registerB (v ||| w) = registerB v ||| registerB w := by
  unfold registerB; ext k hk; simp

theorem immediate_or (v w : Word) : immediate (v ||| w) = immediate v ||| immediate w := by
  unfold immediate; ext k hk; simp

theorem opcode_placeA (v : Word) : opcode (placeA v) = 0 := by
  unfold opcode placeA; ext k hk; interval_cases k <;> simp

theorem opcode_placeB (v : Word) : opcode (placeB v) = 0 := by
  unfold opcode placeB; ext k hk; interval_cases k <;> simp

theorem opcode_place8 (v : Word) : opcode (place8 v) = 0 := by
  unfold opcode place8; ext k hk; interval_cases k <;> simp

theorem registerA_placeA (v : Word) : registerA (placeA v) = v.setWidth 3 := by
  unfold registerA placeA; ext k hk; interval_cases k <;> simp

theorem registerA_placeB (v : Word) : registerA (placeB v) = 0 := by
  unfold registerA placeB; ext k hk; interval_cases k <;> simp

theorem registerA_place8 (v : Word) : registerA (place8 v) = 0 := by
  unfold registerA place8; ext k hk; interval_cases k <;> simp

theorem registerB_placeA (v : Word) : registerB (placeA v) = 0 := by
  unfold registerB placeA; ext k hk; interval_cases k <;> simp

theorem registerB_placeB (v : Word) : registerB (placeB v) = v.setWidth 3 := by
  unfold registerB placeB; ext k hk; interval_cases k <;> simp

theorem immediate_placeA (v : Word) : immediate (placeA v) = 0 := by
  unfold immediate placeA; ext k hk; interval_cases k <;> simp

theorem immediate_place8 (v : Word) : immediate (place8 v) = v.setWidth 8 := by
  unfold immediate place8; ext k hk; interval_cases k <;> simp

/-- HLT is recognised by its opcode number (R55, R57). -/
theorem decode_eq_hlt_iff (w : Word) : decode w = .hlt ↔ opcode w = 15#5 := by
  constructor
  · intro h
    unfold decode at h
    split at h <;> first | (rename_i h15; exact BitVec.eq_of_toNat_eq h15) | simp at h
  · intro h
    simp [decode, h]

end Sys2Proof
end

