-- ==== Sys2Proof/Laws/Memory.lean ====
section
/-! SUPPORT. The laws of a store: read after write, the canonical form is kept, and equal readings mean equal data. -/

namespace Sys2Proof.Machine

@[simp] theorem Memory.read_nil (a : Addr) : Memory.read [] a = 0 := rfl

@[simp] theorem Memory.wf_nil : Memory.wf [] := by simp [Memory.wf]

theorem Memory.wordAt_insertCell (m : Memory) (a k : Nat) (v : Word) (h : ∀ c ∈ m, c.1 ≠ a) :
    Memory.wordAt k (Memory.insertCell a v m) = if k = a then v else Memory.wordAt k m := by
  induction m with
  | nil => simp [Memory.insertCell, Memory.wordAt, eq_comm]
  | cons c rest ih =>
    have hc : c.1 ≠ a := h c (by simp)
    have hr := ih fun d hd => h d (by simp [hd])
    unfold Memory.insertCell
    split
    · by_cases hk : k = a
      · simp [Memory.wordAt, hk]
      · simp [Memory.wordAt, hk, Ne.symm hk]
    · rw [Memory.wordAt, hr]
      by_cases hk : k = a
      · subst hk; simp [hc]
      · simp [Memory.wordAt, hk]

theorem Memory.wordAt_erase (m : Memory) (a k : Nat) :
    Memory.wordAt k (m.filter (fun c => c.1 != a)) = if k = a then Memory.unlisted else Memory.wordAt k m := by
  induction m with
  | nil => simp [Memory.wordAt]
  | cons c rest ih =>
    by_cases hc : c.1 = a
    · have hf : (c :: rest).filter (fun c => c.1 != a) = rest.filter (fun c => c.1 != a) := by simp [hc]
      rw [hf, ih]
      by_cases hk : k = a
      · simp [hk]
      · have hck : c.1 ≠ k := fun e => hk (e.symm.trans hc)
        simp [hk, Memory.wordAt, hck]
    · have hf : (c :: rest).filter (fun c => c.1 != a) = c :: rest.filter (fun c => c.1 != a) := by simp [hc]
      rw [hf, Memory.wordAt, ih]
      by_cases hk : k = a
      · subst hk; simp [hc]
      · simp [hk, Memory.wordAt]

/-- Reading after a write: the written word at its address, every other word as before (R30). -/
theorem Memory.read_write (m : Memory) (a b : Addr) (v : Word) :
    (m.write a v).read b = if b = a then v else m.read b := by
  have hne : ∀ c ∈ m.filter (fun c => c.1 != a.toNat), c.1 ≠ a.toNat := by simp
  have hb : b.toNat = a.toNat ↔ b = a := BitVec.toNat_inj
  unfold Memory.read Memory.write
  by_cases hv : v = Memory.unlisted
  · simp only [hv, if_true, Memory.wordAt_erase, hb]
  · simp only [hv, if_false, Memory.wordAt_insertCell _ _ _ _ hne, Memory.wordAt_erase, hb]
    by_cases h : b = a <;> simp [h]

@[simp] theorem Memory.read_write_same (m : Memory) (a : Addr) (v : Word) : (m.write a v).read a = v := by
  simp [Memory.read_write]

theorem Memory.read_write_other (m : Memory) {a b : Addr} (v : Word) (h : b ≠ a) :
    (m.write a v).read b = m.read b := by
  simp [Memory.read_write, h]

theorem Memory.mem_insertCell {a : Nat} {v : Word} {m : Memory} {c : Nat × Word}
    (h : c ∈ Memory.insertCell a v m) : c = (a, v) ∨ c ∈ m := by
  induction m with
  | nil => simpa [Memory.insertCell] using h
  | cons d rest ih =>
    unfold Memory.insertCell at h
    split at h
    · simpa using h
    · rcases List.mem_cons.mp h with rfl | h
      · simp
      · rcases ih h with rfl | h <;> simp_all

theorem Memory.pairwise_insertCell {a : Nat} {v : Word} {m : Memory}
    (hp : m.Pairwise (fun c d => c.1 < d.1)) (h : ∀ c ∈ m, c.1 ≠ a) :
    (Memory.insertCell a v m).Pairwise (fun c d => c.1 < d.1) := by
  induction m with
  | nil => simp [Memory.insertCell]
  | cons c rest ih =>
    have hc : c.1 ≠ a := h c (by simp)
    obtain ⟨hlt, hrest⟩ := List.pairwise_cons.mp hp
    unfold Memory.insertCell
    split
    · refine List.pairwise_cons.mpr ⟨?_, hp⟩
      intro d hd
      rcases List.mem_cons.mp hd with rfl | hd
      · assumption
      · have := hlt d hd; simp only; omega
    · refine List.pairwise_cons.mpr ⟨?_, ih hrest fun d hd => h d (by simp [hd])⟩
      intro d hd
      rcases Memory.mem_insertCell hd with rfl | hd
      · simp only; omega
      · exact hlt d hd

/-- A write keeps the canonical form. -/
theorem Memory.wf_write {m : Memory} (h : m.wf) (a : Addr) (v : Word) : (m.write a v).wf := by
  obtain ⟨hp, hc⟩ := h
  have hp' := hp.filter (fun c => c.1 != a.toNat)
  have hc' : ∀ c ∈ m.filter (fun c => c.1 != a.toNat), c.1 < 256 ∧ c.2 ≠ Memory.unlisted :=
    fun c hm => hc c (List.mem_filter.mp hm).1
  unfold Memory.write
  by_cases hv : v = Memory.unlisted
  · simpa [hv] using ⟨hp', fun c hm => hc' c hm⟩
  · simp only [hv, if_false]
    refine ⟨Memory.pairwise_insertCell hp' (by simp), fun c hm => ?_⟩
    rcases Memory.mem_insertCell hm with rfl | hm
    · exact ⟨a.isLt, hv⟩
    · exact hc' c hm

theorem Memory.wordAt_of_lt {m : Memory} {k : Nat} (h : ∀ c ∈ m, k < c.1) : Memory.wordAt k m = Memory.unlisted := by
  induction m with
  | nil => rfl
  | cons c rest ih =>
    have hc : c.1 ≠ k := Nat.ne_of_gt (h c (by simp))
    rw [Memory.wordAt, if_neg hc]
    exact ih fun d hd => h d (by simp [hd])

theorem Memory.wordAt_head (c : Nat × Word) (rest : Memory) : Memory.wordAt c.1 (c :: rest) = c.2 := by
  simp [Memory.wordAt]

theorem Memory.wf_tail {c : Nat × Word} {rest : Memory} (h : Memory.wf (c :: rest)) :
    Memory.wf rest ∧ ∀ d ∈ rest, c.1 < d.1 :=
  ⟨⟨(List.pairwise_cons.mp h.1).2, fun d hd => h.2 d (by simp [hd])⟩, (List.pairwise_cons.mp h.1).1⟩

/-- Two stores in canonical form that hold the same word at every address are the same list. -/
theorem Memory.eq_of_wordAt_eq {m n : Memory} (hm : m.wf) (hn : n.wf)
    (h : ∀ k < 256, Memory.wordAt k m = Memory.wordAt k n) : m = n := by
  induction m generalizing n with
  | nil =>
    cases n with
    | nil => rfl
    | cons d n' =>
      have hd := hn.2 d (by simp)
      exact absurd ((Memory.wordAt_head d n').symm.trans (h d.1 hd.1).symm) hd.2
  | cons c m' ih =>
    have hc := hm.2 c (by simp)
    obtain ⟨hm', hlt⟩ := Memory.wf_tail hm
    cases n with
    | nil => exact absurd ((Memory.wordAt_head c m').symm.trans (h c.1 hc.1)) hc.2
    | cons d n' =>
      have hd := hn.2 d (by simp)
      obtain ⟨hn', hlt'⟩ := Memory.wf_tail hn
      have hkey : c.1 = d.1 := by
        rcases Nat.lt_trichotomy c.1 d.1 with hcd | hcd | hcd
        · have hz : Memory.wordAt c.1 (d :: n') = Memory.unlisted := by
            refine Memory.wordAt_of_lt fun e he => ?_
            rcases List.mem_cons.mp he with rfl | he
            · exact hcd
            · exact Nat.lt_trans hcd (hlt' e he)
          exact absurd ((Memory.wordAt_head c m').symm.trans ((h c.1 hc.1).trans hz)) hc.2
        · exact hcd
        · have hz : Memory.wordAt d.1 (c :: m') = Memory.unlisted := by
            refine Memory.wordAt_of_lt fun e he => ?_
            rcases List.mem_cons.mp he with rfl | he
            · exact hcd
            · exact Nat.lt_trans hcd (hlt e he)
          exact absurd ((Memory.wordAt_head d n').symm.trans ((h d.1 hd.1).symm.trans hz)) hd.2
      have hval : c.2 = d.2 := by
        have hh := h c.1 hc.1
        rw [Memory.wordAt_head, hkey, Memory.wordAt_head] at hh
        exact hh
      obtain rfl : c = d := Prod.ext hkey hval
      congr 1
      refine ih hm' hn' fun k hk => ?_
      by_cases hkc : k = c.1
      · rw [hkc, Memory.wordAt_of_lt hlt, Memory.wordAt_of_lt hlt']
      · have hh := h k hk
        rwa [Memory.wordAt, Memory.wordAt, if_neg (Ne.symm hkc), if_neg (Ne.symm hkc)] at hh

/-- Two stores in canonical form that read the same at every address are the same list. -/
theorem Memory.ext_of_wf {m n : Memory} (hm : m.wf) (hn : n.wf) (h : ∀ a : Addr, m.read a = n.read a) : m = n := by
  refine Memory.eq_of_wordAt_eq hm hn fun k hk => ?_
  have hh := h (BitVec.ofNat 8 k)
  simpa [Memory.read, Nat.mod_eq_of_lt hk] using hh

end Sys2Proof.Machine
end

