-- ==== Sys2Proof/Laws/State.lean ====
section
/-! SUPPORT. One lemma per field per update of the state, and reading a register after writing one. -/

namespace Sys2Proof.Machine

variable (s : State) (r q : RegIdx) (v t : Word) (b : Bool) (a : Addr) (image : Memory)

theorem State.readReg_writeReg : (s.writeReg r v).readReg q = if q = r then v else s.readReg q := by
  by_cases h : q = r
  · simp [State.readReg, State.writeReg, h]
  · have hn : r.toNat ≠ q.toNat := fun e => h (BitVec.toNat_inj.mp e.symm)
    simp [State.readReg, State.writeReg, h, hn]

@[simp] theorem State.readReg_writeReg_same : (s.writeReg r v).readReg r = v := by
  simp [State.readReg_writeReg]

theorem State.readReg_writeReg_other {s : State} {r q : RegIdx} {v : Word} (h : q ≠ r) :
    (s.writeReg r v).readReg q = s.readReg q := by
  simp [State.readReg_writeReg, h]

@[simp] theorem State.writeReg_pc : (s.writeReg r v).pc = s.pc := rfl
@[simp] theorem State.writeReg_flag : (s.writeReg r v).flag = s.flag := rfl
@[simp] theorem State.writeReg_ir : (s.writeReg r v).ir = s.ir := rfl
@[simp] theorem State.writeReg_imem : (s.writeReg r v).imem = s.imem := rfl
@[simp] theorem State.writeReg_dmem : (s.writeReg r v).dmem = s.dmem := rfl

@[simp] theorem State.setFlag_x : (s.setFlag b).x = s.x := rfl
@[simp] theorem State.setFlag_readReg : (s.setFlag b).readReg q = s.readReg q := rfl
@[simp] theorem State.setFlag_pc : (s.setFlag b).pc = s.pc := rfl
@[simp] theorem State.setFlag_flag : (s.setFlag b).flag = b := rfl
@[simp] theorem State.setFlag_ir : (s.setFlag b).ir = s.ir := rfl
@[simp] theorem State.setFlag_imem : (s.setFlag b).imem = s.imem := rfl
@[simp] theorem State.setFlag_dmem : (s.setFlag b).dmem = s.dmem := rfl

@[simp] theorem State.setPc_x : (s.setPc t).x = s.x := rfl
@[simp] theorem State.setPc_readReg : (s.setPc t).readReg q = s.readReg q := rfl
@[simp] theorem State.setPc_pc : (s.setPc t).pc = t := rfl
@[simp] theorem State.setPc_flag : (s.setPc t).flag = s.flag := rfl
@[simp] theorem State.setPc_ir : (s.setPc t).ir = s.ir := rfl
@[simp] theorem State.setPc_imem : (s.setPc t).imem = s.imem := rfl
@[simp] theorem State.setPc_dmem : (s.setPc t).dmem = s.dmem := rfl

@[simp] theorem State.storeData_x : (s.storeData a v).x = s.x := rfl
@[simp] theorem State.storeData_readReg : (s.storeData a v).readReg q = s.readReg q := rfl
@[simp] theorem State.storeData_pc : (s.storeData a v).pc = s.pc := rfl
@[simp] theorem State.storeData_flag : (s.storeData a v).flag = s.flag := rfl
@[simp] theorem State.storeData_ir : (s.storeData a v).ir = s.ir := rfl
@[simp] theorem State.storeData_imem : (s.storeData a v).imem = s.imem := rfl
@[simp] theorem State.storeData_dmem : (s.storeData a v).dmem = s.dmem.write a v := rfl

@[simp] theorem State.fetched_x : s.fetched.x = s.x := rfl
@[simp] theorem State.fetched_readReg : s.fetched.readReg q = s.readReg q := rfl
@[simp] theorem State.fetched_pc : s.fetched.pc = s.pc + 1 := rfl
@[simp] theorem State.fetched_flag : s.fetched.flag = s.flag := rfl
@[simp] theorem State.fetched_ir : s.fetched.ir = s.wordAtPc := rfl
@[simp] theorem State.fetched_imem : s.fetched.imem = s.imem := rfl
@[simp] theorem State.fetched_dmem : s.fetched.dmem = s.dmem := rfl

@[simp] theorem State.resetWith_readReg : (State.resetWith image).readReg q = 0 := by
  simp [State.resetWith, State.readReg]
@[simp] theorem State.resetWith_pc : (State.resetWith image).pc = 0 := rfl
@[simp] theorem State.resetWith_flag : (State.resetWith image).flag = false := rfl
@[simp] theorem State.resetWith_ir : (State.resetWith image).ir = 0 := rfl
@[simp] theorem State.resetWith_imem : (State.resetWith image).imem = image := rfl
@[simp] theorem State.resetWith_dmem : (State.resetWith image).dmem = [] := rfl

end Sys2Proof.Machine
end

