-- ==== Sys2Proof/Laws/Exec.lean ====
section
/-! SUPPORT. What EXECUTE can do, said once: every instruction answers a next state, and that state is the old one
with at most one register, the flag, `pc` or one data word changed. -/

namespace Sys2Proof.Machine

/-- Everything a register-pair operation does to the registers. -/
theorem readReg_regPairOp (op : Word → Word → Word) (a b q : RegIdx) (s : State) :
    (regPairOp op a b s).readReg q = if q = a then op (s.readReg a) (s.readReg b) else s.readReg q :=
  State.readReg_writeReg s a q _

/-- Everything a one-register operation does to the registers. -/
theorem readReg_regOp (op : Word → Word) (a q : RegIdx) (s : State) :
    (regOp op a s).readReg q = if q = a then op (s.readReg a) else s.readReg q :=
  State.readReg_writeReg s a q _

/-- The five things EXECUTE can do. -/
theorem exec_next_cases {i : Instr} {s t : State} (h : exec i s = .next t) :
    (∃ a v, t = s.writeReg a v) ∨
    (∃ a b, i = .cmp a b ∧ t = s.setFlag (equalFlag (s.readReg a) (s.readReg b))) ∨
    (∃ addr, (i = .jmp addr ∨ i = .je addr ∧ s.flag = true) ∧ t = s.setPc (jumpTarget addr)) ∨
    (∃ a addr, i = .st a addr ∧ t = s.storeData (dataAddress addr) (s.readReg a)) ∨
    t = s := by
  cases i <;> simp only [exec, execMov, execAdd, execSub, execAnd, execOr, execSl, execSr, execSra, execLdl, execLdh,
    execCmp, execJe, execJmp, execLd, execSt, execHlt, execUnk, regPairOp, regOp, Host.Outcome.next.injEq] at h
  case cmp a b => exact .inr (.inl ⟨a, b, rfl, h.symm⟩)
  case je addr =>
    cases hf : s.flag
    · exact .inr (.inr (.inr (.inr (by simpa [hf] using h.symm))))
    · exact .inr (.inr (.inl ⟨addr, .inr ⟨rfl, rfl⟩, by simpa [hf] using h.symm⟩))
  case jmp addr => exact .inr (.inr (.inl ⟨addr, .inl rfl, h.symm⟩))
  case st a addr => exact .inr (.inr (.inr (.inl ⟨a, addr, rfl, h.symm⟩)))
  case hlt => exact .inr (.inr (.inr (.inr h.symm)))
  case unk => exact .inr (.inr (.inr (.inr h.symm)))
  all_goals exact .inl ⟨_, _, h.symm⟩

/-- The execute phase writes neither `IR` nor the instruction store. -/
theorem exec_keeps_ir_imem {i : Instr} {s t : State} (h : exec i s = .next t) : t.ir = s.ir ∧ t.imem = s.imem := by
  rcases exec_next_cases h with ⟨a, v, rfl⟩ | ⟨a, b, -, rfl⟩ | ⟨addr, -, rfl⟩ | ⟨a, addr, -, rfl⟩ | rfl <;> simp

/-- The execute phase keeps the data store in its canonical form. -/
theorem exec_keeps_dmem_wf {i : Instr} {s t : State} (h : exec i s = .next t) (hw : s.dmem.wf) : t.dmem.wf := by
  rcases exec_next_cases h with ⟨a, v, rfl⟩ | ⟨a, b, -, rfl⟩ | ⟨addr, -, rfl⟩ | ⟨a, addr, -, rfl⟩ | rfl <;>
    first | exact hw | exact Memory.wf_write hw _ _

end Sys2Proof.Machine
end

