-- ==== Sys2Proof/Laws/Loader.lean ====
section
/-! SUPPORT. What the loader does to a store: the canonical form is kept, and every word reads as written or as before. -/

namespace Sys2Proof.Machine

/-- A load keeps the canonical form, whatever its length. -/
theorem Memory.wf_loadAt {m : Memory} (h : m.wf) (a : Nat) (ws : List Word) : (m.loadAt a ws).wf := by
  induction ws generalizing m a with
  | nil => exact h
  | cons w ws ih =>
    unfold Memory.loadAt
    split
    · exact ih (Memory.wf_write h _ _) _
    · exact h

/-- Reading after a load that fits the store: its word at each address it writes, the old word elsewhere. -/
theorem Memory.read_loadAt (m : Memory) (a : Nat) (ws : List Word) (b : Addr) (h : a + ws.length ≤ 256) :
    (m.loadAt a ws).read b = if a ≤ b.toNat then ws.getD (b.toNat - a) (m.read b) else m.read b := by
  induction ws generalizing m a with
  | nil => simp [Memory.loadAt]
  | cons w ws ih =>
    rw [List.length_cons] at h
    have hb : b = BitVec.ofNat 8 a ↔ b.toNat = a := by
      rw [← BitVec.toNat_inj, BitVec.toNat_ofNat, Nat.mod_eq_of_lt (by omega)]
    rw [Memory.loadAt, if_pos (show a < 256 by omega), ih _ _ (by omega), Memory.read_write]
    rcases Nat.lt_trichotomy b.toNat a with hlt | heq | hgt
    · rw [if_neg (by omega), if_neg (by rw [hb]; omega), if_neg (by omega)]
    · rw [if_neg (by omega), if_pos (hb.2 heq), if_pos (by omega), heq, Nat.sub_self, List.getD_cons_zero]
    · rw [if_pos (by omega), if_neg (by rw [hb]; omega), if_pos (by omega),
        show b.toNat - a = (b.toNat - (a + 1)) + 1 by omega, List.getD_cons_succ]

end Sys2Proof.Machine
end

