-- ==== Sys2Proof/Laws/PerInstr.lean ====
section
/-! SUPPORT. The family `OpcodeOfEncode`: the word of an instruction carries that instruction's opcode number in bits
15..11, whatever its operands (spec/40_codec.md R90, R96; numbers by the spec's decision D1). -/

namespace Sys2Proof.Laws

/-- Operand fields leave the opcode alone. -/
theorem opcode_of_fields (base a b : Word) (ha : opcode a = 0) (hb : opcode b = 0) :
    opcode (base ||| a ||| b) = opcode base := by
  simp [opcode_or, ha, hb]

/-- One operand field leaves the opcode alone. -/
theorem opcode_of_field (base a : Word) (ha : opcode a = 0) : opcode (base ||| a) = opcode base := by
  simp [opcode_or, ha]

namespace OpcodeOfEncode

/-- The opcode number of R55; an UNK carries its own. -/
def number : Instr → BitVec 5
  | .mov _ _ => 0
  | .add _ _ => 1
  | .sub _ _ => 2
  | .and _ _ => 3
  | .or _ _ => 4
  | .sl _ => 5
  | .sr _ => 6
  | .sra _ => 7
  | .ldl _ _ => 8
  | .ldh _ _ => 9
  | .cmp _ _ => 10
  | .je _ => 11
  | .jmp _ => 12
  | .ld _ _ => 13
  | .st _ _ => 14
  | .hlt => 15
  | .unk op _ => op

/-- The opcode of the word is the opcode number. -/
def Statement (i : Instr) : Prop := opcode (encode i) = number i

theorem mov (a b : RegIdx) : Statement (.mov a b) := opcode_of_fields 0x0000#16 _ _ (opcode_placeA _) (opcode_placeB _)
theorem add (a b : RegIdx) : Statement (.add a b) := opcode_of_fields 0x0800#16 _ _ (opcode_placeA _) (opcode_placeB _)
theorem sub (a b : RegIdx) : Statement (.sub a b) := opcode_of_fields 0x1000#16 _ _ (opcode_placeA _) (opcode_placeB _)
theorem and (a b : RegIdx) : Statement (.and a b) := opcode_of_fields 0x1800#16 _ _ (opcode_placeA _) (opcode_placeB _)
theorem or (a b : RegIdx) : Statement (.or a b) := opcode_of_fields 0x2000#16 _ _ (opcode_placeA _) (opcode_placeB _)
theorem sl (a : RegIdx) : Statement (.sl a) := opcode_of_field 0x2800#16 _ (opcode_placeA _)
theorem sr (a : RegIdx) : Statement (.sr a) := opcode_of_field 0x3000#16 _ (opcode_placeA _)
theorem sra (a : RegIdx) : Statement (.sra a) := opcode_of_field 0x3800#16 _ (opcode_placeA _)
theorem ldl (a : RegIdx) (imm : Byte) : Statement (.ldl a imm) :=
  opcode_of_fields 0x4000#16 _ _ (opcode_placeA _) (opcode_place8 _)
theorem ldh (a : RegIdx) (imm : Byte) : Statement (.ldh a imm) :=
  opcode_of_fields 0x4800#16 _ _ (opcode_placeA _) (opcode_place8 _)
theorem cmp (a b : RegIdx) : Statement (.cmp a b) := opcode_of_fields 0x5000#16 _ _ (opcode_placeA _) (opcode_placeB _)
theorem je (addr : Addr) : Statement (.je addr) := opcode_of_field 0x5800#16 _ (opcode_place8 _)
theorem jmp (addr : Addr) : Statement (.jmp addr) := opcode_of_field 0x6000#16 _ (opcode_place8 _)
theorem ld (a : RegIdx) (addr : Addr) : Statement (.ld a addr) :=
  opcode_of_fields 0x6800#16 _ _ (opcode_placeA _) (opcode_place8 _)
theorem st (a : RegIdx) (addr : Addr) : Statement (.st a addr) :=
  opcode_of_fields 0x7000#16 _ _ (opcode_placeA _) (opcode_place8 _)
theorem hlt : Statement .hlt := rfl
theorem unk (op : BitVec 5) (low : BitVec 11) : Statement (.unk op low) := by
  unfold Statement opcode encode number
  ext k hk
  interval_cases k <;> simp [← BitVec.getLsbD_eq_getElem]

end OpcodeOfEncode

end Sys2Proof.Laws
end

