-- ==== Sys2Proof/Laws/Step.lean ====
section
/-! SUPPORT. The cycle and the step, taken apart once: what a next state of either is made of. -/

namespace Sys2Proof.Machine

theorem andThen_next_iff {σ τ : Type} {o : Host.Outcome σ Fault Refusal} {k : σ → Host.Outcome τ Fault Refusal}
    {t : τ} : andThen o k = .next t ↔ ∃ s, o = .next s ∧ k s = .next t := by
  cases o <;> simp [andThen]

theorem andThen_fault_iff {σ τ : Type} {o : Host.Outcome σ Fault Refusal} {k : σ → Host.Outcome τ Fault Refusal}
    {f : Fault} : andThen o k = .fault f ↔ o = .fault f ∨ ∃ s, o = .next s ∧ k s = .fault f := by
  cases o <;> simp [andThen]

theorem fetch_next_iff {s t : State} : fetch s = .next t ↔ s.pc.toNat < 256 ∧ t = s.fetched := by
  unfold fetch raiseFetchOutOfRange
  split <;> simp_all [eq_comm]

theorem cycle_next_iff {s t : State} {r : ObserverRecord} : cycle s = .next (t, r) ↔
    s.halted = false ∧ s.pc.toNat < 256 ∧ exec (decode s.wordAtPc) s.fetched = .next t ∧
      r = ⟨s.pc, s.wordAtPc, t.x⟩ := by
  unfold cycle executeAndNotify
  cases s.halted
  · simp only [Bool.false_eq_true, if_false, andThen_next_iff, fetch_next_iff, true_and,
      Host.Outcome.next.injEq, Prod.mk.injEq]
    constructor
    · rintro ⟨f, ⟨hp, rfl⟩, u, hu, rfl, rfl⟩
      exact ⟨hp, hu, rfl⟩
    · rintro ⟨hp, hu, rfl⟩
      exact ⟨_, ⟨hp, rfl⟩, _, hu, rfl, rfl⟩
  · simp

theorem step_next_iff {s t : State} : step s = .next t ↔
    s.halted = false ∧ s.pc.toNat < 256 ∧ exec (decode s.wordAtPc) s.fetched = .next t := by
  unfold step
  rw [andThen_next_iff]
  constructor
  · rintro ⟨⟨u, r⟩, hc, hu⟩
    obtain rfl : u = t := by simpa using hu
    obtain ⟨h, hp, he, -⟩ := cycle_next_iff.mp hc
    exact ⟨h, hp, he⟩
  · rintro ⟨h, hp, he⟩
    exact ⟨(t, _), cycle_next_iff.mpr ⟨h, hp, he, rfl⟩, rfl⟩

theorem step_of_halted {s : State} (h : s.halted = true) : step s = .refused .halted := by
  simp [step, cycle, h, andThen]

theorem step_of_pc_out {s : State} (h : s.halted = false) (hp : 256 ≤ s.pc.toNat) :
    step s = .fault (.fetchOutOfRange s.pc) := by
  have hn : ¬ s.pc.toNat < 256 := by omega
  simp [step, cycle, h, andThen, fetch, hn, raiseFetchOutOfRange]

/-- Inside the store and not halted, the step is the execute phase of the fetched word. -/
theorem step_of_fetch {s : State} (h : s.halted = false) (hp : s.pc.toNat < 256) :
    step s = exec (decode s.wordAtPc) s.fetched := by
  simp only [step, cycle, h, Bool.false_eq_true, if_false, fetch, hp, if_true, andThen, executeAndNotify,
    State.fetched_ir]
  cases exec (decode s.wordAtPc) s.fetched <;> rfl

/-- After a step `IR` holds the word that was fetched (spec/10_state.md R15). -/
theorem step_ir {s t : State} (h : step s = .next t) : t.ir = s.wordAtPc :=
  (exec_keeps_ir_imem (step_next_iff.mp h).2.2).1

/-- Halted means that `IR` holds a HLT word (R16). -/
theorem halted_iff_decode (s : State) : s.halted = true ↔ decode s.ir = .hlt := by
  simp [State.halted, decode_eq_hlt_iff]

/-- The increment of a `pc` inside the store does not wrap (R13). -/
theorem toNat_pc_succ {p : Word} (h : p.toNat < 256) : (p + 1).toNat = p.toNat + 1 := by
  rw [BitVec.toNat_add]
  simp
  omega

end Sys2Proof.Machine
end

