-- ==== Sys2Proof/Tests/Slice0.lean ====
section
/-! SUPPORT. The model's own tests, one step each, with the expected values of spec/95_test_vectors.md (the section is
named at each group), and the witnesses that meet the hypotheses of the obligations. -/

namespace Sys2Proof.Tests

open Sys2Proof Sys2Proof.Machine

/-! ## Helpers -/

/-- Whether an outcome is a next state that passes a check. -/
def nextIs (o : Host.Outcome State Fault Refusal) (p : State → Bool) : Bool :=
  match o with
  | .next t => p t
  | .fault _ => false
  | .refused _ => false

/-- Reset with two registers set. -/
def regs2 (a : RegIdx) (v : Word) (b : RegIdx) (w : Word) : State := (State.reset.writeReg b w).writeReg a v

/-- Run one word in a state and check the next state. -/
def runs (s : State) (w : Nat) (p : State → Bool) : Bool := nextIs (step (s.withFetchWord 16 w)) p

/-- The state after a step that answers one. -/
def after (s : State) : State :=
  match step s with
  | .next t => t
  | .fault _ => s
  | .refused _ => s

/-- Reset with a load image. -/
def boot (ws : List Word) : State := State.boot ws

/-- A machine about to fetch the word `w` from address 255. -/
def atLast (w : Word) : State := { State.resetWith [(255, w)] with pc := 255 }

/-! ## Well-formedness -/

theorem test_wf_refuses_defined_opcode_in_unk : (Instr.unk 15 0).wf = false := by decide
theorem test_wf_accepts_unk_16 : (Instr.unk 16 0).wf = true := by decide

/-! ## Decoding, words written out from the encodings of 30_encoding.md R51, R55 and 95 section 2.2 -/

theorem test_decode_alu :
    decode 0b00000_001_011_00000#16 = .mov 1 3 ∧ decode 0b00001_010_001_00000#16 = .add 2 1 ∧
    decode 0b00010_101_110_00000#16 = .sub 5 6 ∧ decode 0b00011_100_100_00000#16 = .and 4 4 ∧
    decode 0b00100_001_111_00000#16 = .or 1 7 ∧ decode 0x0A3F = .add 2 1 := by decide
theorem test_decode_shift :
    decode 0b00101_111_00000000#16 = .sl 7 ∧ decode 0b00110_011_00000000#16 = .sr 3 ∧
    decode 0b00111_100_00000000#16 = .sra 4 ∧ decode 0x2FFF = .sl 7 := by decide
theorem test_decode_byte_load :
    decode 0b01000_011_00001010#16 = .ldl 3 10 ∧ decode 0b01001_101_10000000#16 = .ldh 5 0x80 ∧
    decode 0x41FF = .ldl 1 255 := by decide
theorem test_decode_compare_branch :
    decode 0b01010_110_010_00000#16 = .cmp 6 2 ∧ decode 0b01011_000_00001110#16 = .je 14 ∧
    decode 0b01100_000_00001000#16 = .jmp 8 ∧ decode 0x5F0E = .je 14 := by decide
theorem test_decode_load_store :
    decode 0b01101_010_00010000#16 = .ld 2 16 ∧ decode 0b01110_000_01000000#16 = .st 0 64 := by decide
theorem test_decode_halt_unknown :
    decode 0b01111_00000000000#16 = .hlt ∧ decode 0x7FFF = .hlt ∧ decode 0b10000_00000000000#16 = .unk 16 0 ∧
    decode 0x87FF = .unk 16 0x7FF ∧ decode 0xFFFF = .unk 31 0x7FF := by decide
theorem test_projections :
    opcode 0x7040 = 14 ∧ registerA 0x0A20 = 2 ∧ registerB 0x0A20 = 1 ∧ immediate 0x430A = 10 ∧ address 0x7040 = 64 ∧
    registerB (encLDL 1 0xFF) = 7 := by decide

/-- The calls of 95 section 2.1. -/
theorem test_encoders :
    encMOV 0 0 = 0x0000 ∧ encMOV 7 7 = 0x07E0 ∧ encMOV 9 3 = 0x0160 ∧ encADD 7 0 = 0x0F00 ∧ encADD 2 1 = 0x0A20 ∧
    encSUB 5 6 = 0x15C0 ∧ encAND 4 4 = 0x1C80 ∧ encOR 1 7 = 0x21E0 ∧ encSL 7 = 0x2F00 ∧ encSR 3 = 0x3300 ∧
    encSRA 12 = 0x3C00 ∧ encLDL 7 255 = 0x47FF ∧ encLDL 1 0x156 = 0x4156 ∧ encLDH 5 0x80 = 0x4D80 ∧
    encLDH 8 256 = 0x4800 ∧ encCMP 6 2 = 0x5640 ∧ encCMP 15 8 = 0x5700 ∧ encJE 0 = 0x5800 ∧ encJE 255 = 0x58FF ∧
    encJMP 300 = 0x602C ∧ encLD 7 255 = 0x6FFF ∧ encLD 9 300 = 0x692C ∧ encST 3 0x80 = 0x7380 ∧ encST 0 64 = 0x7040 ∧
    encHLT = 0x7800 := by decide

/-- The words of the reference listing (70_reset_and_hazards.md R204). -/
theorem test_reference_words :
    referenceListing.map encode =
      [0x4800, 0x4000, 0x4900, 0x4101, 0x4A00, 0x4200, 0x4B00, 0x430A, 0x0A20, 0x0840, 0x7040, 0x5260, 0x580E, 0x6008,
        0x7800] := by decide

/-! ## One step each: 95 sections 2.3 to 2.8 -/

theorem test_mov : runs (State.reset.writeReg 3 0xBEEF) 0x0160
    (fun t => t.readReg 1 == 0xBEEF && t.readReg 3 == 0xBEEF && t.pc == 1) = true := by decide
theorem test_add_wraps : runs (regs2 2 0xFFFF 1 1) 0x0A20 (fun t => t.readReg 2 == 0 && !t.flag) = true := by decide
theorem test_add_same_register : runs (State.reset.writeReg 4 0xC001) 0x0C80 (fun t => t.readReg 4 == 0x8002) = true := by
  decide
theorem test_sub_wraps : runs (regs2 1 0 2 1) 0x1140 (fun t => t.readReg 1 == 0xFFFF) = true := by decide
theorem test_sub_order : runs (regs2 1 0x1234 2 0x0230) 0x1140 (fun t => t.readReg 1 == 0x1004) = true := by decide
theorem test_and : runs (regs2 2 0x1234 3 0x0FF0) 0x1A60 (fun t => t.readReg 2 == 0x0230) = true := by decide
theorem test_or : runs (regs2 3 0x0FF0 1 0x1234) 0x2320 (fun t => t.readReg 3 == 0x1FF4) = true := by decide
theorem test_sl : runs (State.reset.writeReg 0 0x8001) 0x28AB (fun t => t.readReg 0 == 0x0002) = true := by decide
theorem test_sr : runs (State.reset.writeReg 1 0x8001) 0x3100 (fun t => t.readReg 1 == 0x4000) = true := by decide
theorem test_sra : runs (State.reset.writeReg 2 0x8001) 0x3A00 (fun t => t.readReg 2 == 0xC000) = true := by decide
theorem test_sra_positive : runs (State.reset.writeReg 2 0x7FFF) 0x3A00 (fun t => t.readReg 2 == 0x3FFF) = true := by
  decide
theorem test_ldl : runs (State.reset.writeReg 0 0x1234) 0x4056 (fun t => t.readReg 0 == 0x1256) = true := by decide
theorem test_ldl_no_sign : runs State.reset 0x41FF (fun t => t.readReg 1 == 0x00FF) = true := by decide
theorem test_ldh : runs (State.reset.writeReg 0 0x1234) 0x4878 (fun t => t.readReg 0 == 0x7834) = true := by decide
theorem test_cmp_clears : runs ((regs2 2 9 3 10).setFlag true) 0x5260 (fun t => !t.flag) = true := by decide
theorem test_cmp_all_bits : runs (regs2 0 0 1 0x8000) 0x5020 (fun t => !t.flag) = true := by decide
theorem test_je_taken : runs ((State.reset.setPc 12).setFlag true) 0x580E (fun t => t.pc == 14 && t.flag) = true := by
  decide
theorem test_je_not_taken : runs (State.reset.setPc 12) 0x580E (fun t => t.pc == 13 && !t.flag) = true := by decide
theorem test_jmp : runs State.reset 0x60FF (fun t => t.pc == 255) = true := by decide
theorem test_ld : runs (State.reset.storeData 16 0x1234) 0x6A10 (fun t => t.readReg 2 == 0x1234) = true := by decide
theorem test_ld_never_stored : runs (State.reset.writeReg 7 5) 0x6FC8 (fun t => t.readReg 7 == 0) = true := by decide
theorem test_st : runs (State.reset.writeReg 3 0x1FF4) 0x73FF
    (fun t => t.dmem == [(255, 0x1FF4)] && t.imem == [(0, 0x73FF)]) = true := by decide
theorem test_st_zero_unlists : runs (State.reset.storeData 0 0x1234) 0x7100 (fun t => t.dmem == []) = true := by decide
theorem test_hlt_keeps_low_bits : runs State.reset 0x7FFF
    (fun t => t == { State.reset with pc := 1, ir := 0x7FFF, imem := [(0, 0x7FFF)] } && t.halted) = true := by decide
theorem test_unk : runs (State.reset.setPc 9) 0xFFFF
    (fun t => t == { State.reset with pc := 10, ir := 0xFFFF, imem := [(9, 0xFFFF)] } && !t.halted) = true := by decide
theorem test_fault_past_last_word : step (after (atLast 0x0801)) = .fault (.fetchOutOfRange 256) := by rfl
theorem test_hlt_in_last_word_halts : step (after (atLast 0x7800)) = .refused .halted := by rfl
theorem test_record : cycle (boot [0x7800]) =
    .next (after (boot [0x7800]), ⟨0, 0x7800, Vector.replicate 8 0⟩) := by rfl

/-! ## Witnesses: states and operands that meet the hypotheses of the obligations -/

theorem witness_DecodeAndEncodeAgree : (Instr.unk 16 0).wf = true ∧ (Instr.unk 31 0x7FF).wf = true ∧
    (Instr.ldl 7 255).wf = true := by decide
theorem witness_EncodedFieldsComeBack : (7 : Word).toNat < 8 ∧ (0 : Word).toNat < 8 ∧ (255 : Word).toNat < 256 := by
  decide
theorem witness_EncodersProduceCanonicalWords : (Instr.jmp 255).wf = true ∧
    encode (.jmp 255) = encode (.jmp 255) ∧ (Instr.jmp 255).format ≠ .none ∧
    (opcode 0x7800).toNat ≤ 15 ∧ Canonical 0x7800 := by decide
theorem witness_OpcodeTableSelectsInstruction : ⟨"UNK", .none, 0x8000, 0x8000⟩ ∈ opcodeTable := by decide
theorem witness_UnusedBitsAreIgnored :
    (0x0A3F : Word) &&& usedMask (decode 0x0A20).format = 0x0A20 &&& usedMask (decode 0x0A20).format := by decide
theorem witness_SubWraps_CmpWritesFlag_same_register : (7 : RegIdx) = 7 := rfl
theorem witness_JeJumpsOnFlag : (State.reset.setFlag true).flag = true ∧ State.reset.flag = false := by decide

theorem witness_RegisterReadsAndWrites :
    exec (.add 7 7) State.reset = .next State.reset ∧ (Instr.add 7 7).writesReg 0 = false ∧
    (Instr.add 7 7).writesReg 7 = true ∧ (Instr.add 7 0).readsReg 0 = true ∧
    ({ State.reset with x := (State.reset.writeReg 1 5).x } : State).readReg 0 = State.reset.readReg 0 :=
  ⟨by rfl, by decide, by decide, by decide, by decide⟩

theorem witness_FlagWrittenByCmpReadByJe :
    (Instr.je 0).isCmp = false ∧ exec (.je 0) State.reset = .next State.reset ∧ (Instr.hlt).isJe = false ∧
    (Instr.hlt).isCmp = false := ⟨by decide, by rfl, by decide, by decide⟩

theorem witness_StoresAreTouchedOneWordAtATime :
    (Instr.ld 0 255).isSt = false ∧ exec (.ld 0 255) State.reset = .next State.reset ∧
    exec (.st 0 255) State.reset = .next State.reset ∧ (254 : Addr) ≠ dataAddress 255 ∧
    (Instr.mov 0 0).isLd = false ∧ (Instr.mov 0 0).isSt = false ∧
    Memory.read [(0, 5)] (dataAddress 255) = State.reset.dmem.read (dataAddress 255) ∧
    Memory.read [(1, 5)] (State.reset.pc.setWidth 8) = State.reset.imem.read (State.reset.pc.setWidth 8) :=
  ⟨by decide, by rfl, by rfl, by decide, by decide, by decide, by decide, by decide⟩

/-- The boundary of every hypothesis "not halted, `pc` inside the store": `pc` = 255. It serves
PcIncrementedThenOverwrittenByJumps, StepRunsDecodedInstruction, StepHasThreeOutcomes and PlacedWordIsTheNextToRun. -/
theorem witness_fetchable : (atLast 0x0801).halted = false ∧ (atLast 0x0801).pc.toNat < 256 ∧
    decode ((atLast 0x0801).imem.read ((atLast 0x0801).pc.setWidth 8)) = .add 0 0 := by decide

theorem witness_StepHasThreeOutcomes : ({ State.reset with ir := 0x7FFF } : State).halted = true ∧
    (State.reset.setPc 256).halted = false ∧ 256 ≤ (State.reset.setPc 256).pc.toNat := by decide

theorem witness_FaultOnlyPastTheLastWord : step (atLast 0x0801) = .next (after (atLast 0x0801)) ∧
    step (after (atLast 0x0801)) = .fault (.fetchOutOfRange 256) ∧
    step (atLast 0x6000) = .next (after (atLast 0x6000)) ∧ (decode (atLast 0x6000).wordAtPc).jumpTaken false ≠ none :=
  ⟨by rfl, by rfl, by rfl, by decide⟩

theorem witness_HltWordGetsItsOwnStep : (atLast 0x7FFF).halted = false ∧ (atLast 0x7FFF).pc.toNat < 256 ∧
    decode (atLast 0x7FFF).wordAtPc = .hlt ∧ step (atLast 0x7FFF) = .next (after (atLast 0x7FFF)) :=
  ⟨by decide, by decide, by decide, by rfl⟩

theorem witness_UndefinedOpcodesStepAsNoOps : (atLast 0x8000).halted = false ∧ (atLast 0x8000).pc.toNat < 256 ∧
    16 ≤ (opcode (atLast 0x8000).wordAtPc).toNat ∧ 16 ≤ (opcode (atLast 0xFFFF).wordAtPc).toNat := by decide

theorem witness_EveryStepEmitsItsRecord :
    cycle (atLast 0x0801) = .next (after (atLast 0x0801), ⟨255, 0x0801, Vector.replicate 8 0⟩) ∧
    step (State.reset.setPc 256) = .fault (.fetchOutOfRange 256) := ⟨by rfl, by rfl⟩

theorem witness_JumpsNeverLeaveTheStore : step (atLast 0x60FF) = .next (after (atLast 0x60FF)) ∧
    (decode (atLast 0x60FF).wordAtPc).jumpTaken (atLast 0x60FF).flag = some 255 ∧
    (decode (atLast 0x5800).wordAtPc).jumpTaken true = some 0 := ⟨by rfl, by decide, by decide⟩

theorem witness_StepKeepsInvariant : (atLast 0x0801).Inv ∧ step (atLast 0x0801) = .next (after (atLast 0x0801)) ∧
    (after (atLast 0x0801)).pc.toNat = 256 :=
  ⟨⟨by decide, by decide, by decide, fun h => absurd h (by decide)⟩, by rfl, by decide⟩

theorem witness_InvariantHoldsAtReset : Memory.wf [(0, 0x7800), (255, 1)] := by decide

/-- `JMP 255` at address 0 and nothing else: `pc` = 256 is reached (95, P5 and P6). It serves
InstructionStoreNeverChanges, ReachablePcStaysInRange and ResetValues. -/
theorem witness_reachable_256 : ∃ s, Reachable [(0, 0x60FF)] s ∧ s.pc = 256 :=
  ⟨after (after (State.resetWith [(0, 0x60FF)])),
    .step (.step .boot (t := after (State.resetWith [(0, 0x60FF)])) (by rfl)) (by rfl), by decide⟩

/-- `ST r1, [5]`, `CMP r0, r0`, `LD r2, [5]` (after 95 section 2.7). -/
theorem witness_LoadReturnsLatestStore :
    let s0 := (boot [0x7105, 0x5000, 0x6A05]).writeReg 1 0xCAFE
    decode s0.wordAtPc = .st 1 5 ∧ step s0 = .next (after s0) ∧
    StepsWithout (Instr.storesTo (dataAddress 5)) (after s0) (after (after s0)) ∧
    decode (after (after s0)).wordAtPc = .ld 2 5 ∧ step (after (after s0)) = .next (after (after (after s0))) ∧
    (after (after (after s0))).readReg 2 = 0xCAFE :=
  ⟨by decide, by rfl, .step (by decide) (by rfl) (.refl _), by decide, by rfl, by decide⟩

theorem witness_LoadReturnsLatestStore_reset_and_host :
    StepsWithout (Instr.storesTo (dataAddress 200)) (State.resetWith [(0, 0x6FC8)]) (State.resetWith [(0, 0x6FC8)]) ∧
    decode (State.resetWith [(0, 0x6FC8)]).wordAtPc = .ld 7 200 ∧
    step (State.resetWith [(0, 0x6FC8)]) = .next (after (State.resetWith [(0, 0x6FC8)])) ∧
    (after (atLast 0x7800)).halted = true := ⟨.refl _, by decide, by rfl, by decide⟩

/-- The start of program P4 of 95: `CMP r0, r1`, `LDL r0, 5`, `JE 4`. -/
theorem witness_JeSeesTheLatestCmp :
    let s0 := boot [0x5020, 0x4005, 0x5804]
    decode s0.wordAtPc = .cmp 0 1 ∧ step s0 = .next (after s0) ∧
    StepsWithout Instr.isCmp (after s0) (after (after s0)) ∧ decode (after (after s0)).wordAtPc = .je 4 ∧
    step (after (after s0)) = .next (after (after (after s0))) ∧ (after (after (after s0))).pc = 4 :=
  ⟨by decide, by rfl, .step (by decide) (by rfl) (.refl _), by decide, by rfl, by decide⟩

theorem witness_JeSeesTheLatestCmp_reset :
    StepsWithout Instr.isCmp (State.resetWith [(0, 0x5804)]) (State.resetWith [(0, 0x5804)]) ∧
    decode (State.resetWith [(0, 0x5804)]).wordAtPc = .je 4 ∧
    step (State.resetWith [(0, 0x5804)]) = .next (after (State.resetWith [(0, 0x5804)])) :=
  ⟨.refl _, by decide, by rfl⟩

/-- One HLT word (95 section 2.8): completed with one step allowed, and with one record. -/
theorem witness_runs : (boot [0x7800]).halted = false ∧ (run 1 (boot [0x7800])).ending = .completed ∧
    (run 0 (boot [0x7800])).ending = .notFinished ∧
    (run 1 (State.reset.setPc 256)).ending = .faulted (.fetchOutOfRange 256) := by decide

theorem witness_LoaderFillsInstructionStore : (List.replicate 256 (0 : Word)).length ≤ 256 ∧
    (State.boot [0x7800]).imem.wf ∧ ((State.boot [0x0800, 0x7800]).load [0x6000]).imem = [(0, 0x6000), (1, 0x7800)] :=
  ⟨le_of_eq List.length_replicate, by decide, by decide⟩

end Sys2Proof.Tests
end

/-! # What EXECUTE and the step do to the registers, the flag and `pc`

Proofs of the rules of spec/10_state.md about the state (R11 to R14), of the invariant (R13) and of the reset values
(R26). Whatever is said of one instruction is said once, in a lemma about `exec`; what is said of a step follows. -/

namespace Sys2Proof.Machine

/-! ## EXECUTE -/

/-- Every instruction answers a next state in every state. -/
theorem exec_total (i : Instr) (s : State) : ∃ t, exec i s = .next t := by
  cases i <;> exact ⟨_, rfl⟩

@[simp] theorem mapNext_next (f : State → State) (s : State) : mapNext f (.next s) = .next (f s) := rfl

/-- A register outside the write column of R11 keeps its value. -/
theorem exec_readReg_of_not_writes {i : Instr} {s t : State} {r : RegIdx} (h : exec i s = .next t)
    (hr : i.writesReg r = false) : t.readReg r = s.readReg r := by
  cases i <;> obtain rfl := Host.Outcome.next.inj h
  case cmp | st | jmp | hlt | unk => rfl
  case je => split <;> rfl
  all_goals exact State.readReg_writeReg_other (by simpa [Instr.writesReg] using hr)

/-- The write column of R11 lists at most one register. -/
theorem eq_of_writesReg {i : Instr} {r q : RegIdx} (hr : i.writesReg r = true) (hq : i.writesReg q = true) :
    r = q := by
  cases i
  case cmp | st | je | jmp | hlt | unk => simp [Instr.writesReg] at hr
  all_goals exact (beq_iff_eq.mp hr).trans (beq_iff_eq.mp hq).symm

/-- `t` and `u` agree in all that `i` may have written: its register, and every other part of the state. -/
def SameResult (i : Instr) (t u : State) : Prop :=
  (∀ r, i.writesReg r = true → u.readReg r = t.readReg r) ∧
    u.pc = t.pc ∧ u.flag = t.flag ∧ u.ir = t.ir ∧ u.imem = t.imem ∧ u.dmem = t.dmem

/-- An instruction that writes one register gives the same result from every register file that gives it the same
value. -/
theorem sameResult_writeReg {i : Instr} {a : RegIdx} {s : State} {y : Vector Word 8} {v w : Word}
    (ha : i.writesReg a = true) (hv : w = v) :
    SameResult i (s.writeReg a v) (({ s with x := y } : State).writeReg a w) := by
  refine ⟨fun r hr => ?_, rfl, rfl, rfl, rfl, rfl⟩
  rw [eq_of_writesReg hr ha, hv, State.readReg_writeReg_same, State.readReg_writeReg_same]

/-- What an instruction does depends only on the registers in its read column (R11). -/
theorem exec_sameResult {i : Instr} {s : State} {y : Vector Word 8}
    (h : ∀ r, i.readsReg r = true → ({ s with x := y } : State).readReg r = s.readReg r) :
    ∃ t u, exec i s = .next t ∧ exec i { s with x := y } = .next u ∧ SameResult i t u := by
  cases i
  case mov a b => exact ⟨_, _, rfl, rfl, sameResult_writeReg (beq_self_eq_true a) (h b (beq_self_eq_true b))⟩
  case ld a addr => exact ⟨_, _, rfl, rfl, sameResult_writeReg (beq_self_eq_true a) rfl⟩
  case add a b | sub a b | and a b | or a b =>
    refine ⟨_, _, rfl, rfl, sameResult_writeReg (beq_self_eq_true a) ?_⟩
    rw [h a (by simp [Instr.readsReg]), h b (by simp [Instr.readsReg])]
  case sl a | sr a | sra a | ldl a imm | ldh a imm =>
    refine ⟨_, _, rfl, rfl, sameResult_writeReg (beq_self_eq_true a) ?_⟩
    rw [h a (beq_self_eq_true a)]
  case cmp a b =>
    refine ⟨_, _, rfl, rfl, by simp [Instr.writesReg], rfl, ?_, rfl, rfl, rfl⟩
    rw [State.setFlag_flag, State.setFlag_flag, h a (by simp [Instr.readsReg]), h b (by simp [Instr.readsReg])]
  case st a addr =>
    refine ⟨_, _, rfl, rfl, by simp [Instr.writesReg], rfl, rfl, rfl, rfl, ?_⟩
    rw [State.storeData_dmem, State.storeData_dmem, h a (beq_self_eq_true a)]
  case je addr =>
    refine ⟨_, _, rfl, rfl, by simp [Instr.writesReg], ?_⟩
    cases hf : s.flag <;> simp [hf]
  case jmp | hlt | unk => exact ⟨_, _, rfl, rfl, by simp [Instr.writesReg], rfl, rfl, rfl, rfl, rfl⟩

/-- Every instruction but CMP leaves the flag (R14). -/
theorem exec_flag_of_not_cmp {i : Instr} {s t : State} (hi : i.isCmp = false) (h : exec i s = .next t) :
    t.flag = s.flag := by
  rcases exec_next_cases h with ⟨a, v, rfl⟩ | ⟨a, b, rfl, -⟩ | ⟨addr, -, rfl⟩ | ⟨a, addr, -, rfl⟩ | rfl
  case inr.inl => simp [Instr.isCmp] at hi
  all_goals rfl

/-- An instruction that is neither JE nor CMP does the same whatever the flag, and hands the flag on (R14). -/
theorem exec_with_flag {i : Instr} (hj : i.isJe = false) (hc : i.isCmp = false) (s : State) (f : Bool) :
    exec i { s with flag := f } = mapNext (fun t => { t with flag := f }) (exec i s) := by
  cases i
  case je => simp [Instr.isJe] at hj
  case cmp => simp [Instr.isCmp] at hc
  all_goals rfl

/-- An instruction does the same whatever `pc` is: it leaves the jump's target there, or hands `pc` on (R12, R102). -/
theorem exec_with_pc (i : Instr) (s : State) (p : Word) :
    exec i { s with pc := p } = mapNext (fun t => { t with pc := (i.jumpTaken s.flag).getD p }) (exec i s) := by
  cases i
  case je addr => cases hf : s.flag <;> simp [exec, execJe, Instr.jumpTaken, State.setPc, hf]
  all_goals rfl

/-- The `pc` an instruction leaves: the target of the jump it takes, else the `pc` it began with (R102). -/
theorem exec_pc {i : Instr} {s t : State} (h : exec i s = .next t) : t.pc = (i.jumpTaken s.flag).getD s.pc := by
  have hs := exec_with_pc i s s.pc
  rw [show ({ s with pc := s.pc } : State) = s from rfl, h, mapNext_next, Host.Outcome.next.injEq] at hs
  exact congrArg State.pc hs

/-! ## The step -/

/-- A jump target is an address of the instruction store (spec/45_compare_branch.md R153). -/
theorem jumpTaken_lt {i : Instr} {f : Bool} {target : Word} (h : i.jumpTaken f = some target) :
    target.toNat < 256 := by
  have hlt (addr : Addr) : (jumpTarget addr).toNat < 256 := by
    simpa [jumpTarget] using Nat.lt_of_le_of_lt (Nat.mod_le _ _) addr.isLt
  cases i <;> simp only [Instr.jumpTaken, reduceCtorEq, Option.ite_none_right_eq_some, Option.some.injEq] at h
  case jmp addr => exact h ▸ hlt addr
  case je addr => exact h.2 ▸ hlt addr

theorem step_imem {s t : State} (h : step s = .next t) : t.imem = s.imem :=
  (exec_keeps_ir_imem (step_next_iff.mp h).2.2).2

theorem step_flag_of_not_cmp {s t : State} (hi : (decode s.wordAtPc).isCmp = false) (h : step s = .next t) :
    t.flag = s.flag :=
  exec_flag_of_not_cmp (s := s.fetched) hi (step_next_iff.mp h).2.2

/-- A step leaves `pc` one higher, unless it takes a jump (R12). -/
theorem step_pc {s t : State} (h : step s = .next t) :
    t.pc = ((decode s.wordAtPc).jumpTaken s.flag).getD (s.pc + 1) :=
  exec_pc (step_next_iff.mp h).2.2

/-- A step leaves `pc` in 0..256 (R13). -/
theorem step_pc_le {s t : State} (h : step s = .next t) : t.pc.toNat ≤ 256 := by
  obtain ⟨-, hp, -⟩ := step_next_iff.mp h
  rw [step_pc h]
  cases hj : (decode s.wordAtPc).jumpTaken s.flag with
  | some target => exact Nat.le_of_lt (jumpTaken_lt hj)
  | none => exact (toNat_pc_succ hp).trans_le hp

/-- Only a step that fetches from 255 and takes no jump leaves `pc` at 256 (R13, spec/60_exceptions.md R181). -/
theorem step_pc_eq_256 {s t : State} (h : step s = .next t) (h256 : t.pc.toNat = 256) :
    s.pc = 255 ∧ (decode s.wordAtPc).jumpTaken s.flag = none := by
  obtain ⟨-, hp, -⟩ := step_next_iff.mp h
  rw [step_pc h] at h256
  cases hj : (decode s.wordAtPc).jumpTaken s.flag with
  | some target =>
    rw [hj, Option.getD_some] at h256
    exact absurd (jumpTaken_lt hj) (by omega)
  | none =>
    rw [hj, Option.getD_none, toNat_pc_succ hp] at h256
    exact ⟨BitVec.eq_of_toNat_eq (Nat.succ.inj h256), rfl⟩

/-- When a step leaves `pc` at 256, `IR` holds the word at 255. -/
theorem step_ir_of_pc_eq_256 {s t : State} (h : step s = .next t) (h256 : t.pc.toNat = 256) :
    t.ir = s.imem.read 255 := by
  rw [step_ir h, State.wordAtPc, (step_pc_eq_256 h h256).1]
  rfl

/-- A step that leaves `pc` at 256 ran no JMP, and no JE whose flag is 1. -/
theorem step_ir_not_jump_of_pc_eq_256 {s t : State} (h : step s = .next t) (h256 : t.pc.toNat = 256) :
    (∀ addr, decode t.ir ≠ .jmp addr) ∧ (t.flag = true → ∀ addr, decode t.ir ≠ .je addr) := by
  have hj := (step_pc_eq_256 h h256).2
  rw [step_ir h]
  refine ⟨fun addr hd => ?_, fun hf addr hd => ?_⟩
  · simp [hd, Instr.jumpTaken] at hj
  · have hflag : t.flag = s.flag := step_flag_of_not_cmp (by rw [hd]; rfl) h
    simp [hd, Instr.jumpTaken, ← hflag, hf] at hj

/-! ## Reset and the states a run reaches -/

theorem resetWith_inv {image : Memory} (h : image.wf) : (State.resetWith image).Inv :=
  ⟨h, Memory.wf_nil, Nat.zero_le _, fun h256 => absurd h256 (by simp)⟩

theorem boot_inv (ws : List Word) : (State.boot ws).Inv := resetWith_inv (Memory.wf_loadAt Memory.wf_nil 0 ws)

/-- In every reachable state the instruction store is the load image (spec/20_memory.md R39). -/
theorem reachable_imem {image : Memory} {s : State} (h : Reachable image s) : s.imem = image := by
  induction h with
  | boot => rfl
  | step _ hs ih => exact (step_imem hs).trans ih

@[simp] theorem resetWith_not_halted (image : Memory) : (State.resetWith image).halted = false := by
  rw [State.halted, State.resetWith_ir]
  decide

/-- The first step runs the word at address 0 (spec/70_reset_and_hazards.md R201). -/
theorem step_resetWith (image : Memory) :
    step (State.resetWith image) =
      exec (decode (image.read 0)) { State.resetWith image with ir := image.read 0, pc := 1 } :=
  step_of_fetch (resetWith_not_halted image) (by simp)

/-! ## The obligations -/

/-- Settles O36: a step leaves both stores canonical, and the clauses about `pc` hold after any step at all. -/
theorem stepKeepsInvariant : Obligations.StepKeepsInvariant := by
  rintro s t ⟨himem, hdmem, -, -⟩ h
  refine ⟨step_imem h ▸ himem, exec_keeps_dmem_wf (step_next_iff.mp h).2.2 hdmem, step_pc_le h, fun h256 => ?_⟩
  rw [step_imem h]
  exact ⟨step_ir_of_pc_eq_256 h h256, step_ir_not_jump_of_pc_eq_256 h h256⟩

/-- Settles O24 from the three laws of the read and write columns above. -/
theorem registerReadsAndWrites : Obligations.RegisterReadsAndWrites :=
  fun _ _ => ⟨fun _ _ => exec_readReg_of_not_writes, fun _ _ => eq_of_writesReg, fun _ => exec_sameResult⟩

/-- Settles O25: for CMP both clauses hold by computation, the other instructions need the case split above. -/
theorem flagWrittenByCmpReadByJe : Obligations.FlagWrittenByCmpReadByJe :=
  ⟨fun _ _ _ => exec_flag_of_not_cmp, fun _ _ _ => ⟨_, rfl, rfl⟩,
    fun _ s f hj hc => exec_with_flag hj hc s f, fun _ _ _ _ => rfl⟩

/-- Settles O27: a step that can fetch answers a next state, since every instruction does. -/
theorem pcIncrementedThenOverwrittenByJumps : Obligations.PcIncrementedThenOverwrittenByJumps := by
  refine ⟨rfl, fun s hh hp => ?_, exec_with_pc⟩
  obtain ⟨t, ht⟩ := exec_total (decode s.wordAtPc) s.fetched
  have hs : step s = .next t := (step_of_fetch hh hp).trans ht
  exact ⟨t, hs, step_pc hs⟩

/-- Settles O39: at reset `pc` is 0, and a step ends with `pc` in range from any state. -/
theorem reachablePcStaysInRange : Obligations.ReachablePcStaysInRange := by
  intro image s h
  cases h with
  | boot => exact ⟨Nat.zero_le _, fun h256 => absurd h256 (by simp)⟩
  | step hr hs =>
    refine ⟨step_pc_le hs, fun h256 => ?_⟩
    rw [step_ir_of_pc_eq_256 hs (congrArg BitVec.toNat h256), reachable_imem hr]

/-- Settles O37: a boot is a reset whose load image the loader has kept canonical. -/
theorem invariantHoldsAtReset : Obligations.InvariantHoldsAtReset :=
  ⟨resetWith_inv Memory.wf_nil, fun _ => resetWith_inv, boot_inv⟩

/-- Settles O44: a reset of a machine that has run finds the load image in the instruction store. -/
theorem resetValues : Obligations.ResetValues := fun image =>
  ⟨fun r => State.resetWith_readReg r image, rfl, rfl, rfl, Memory.read_nil, rfl,
    resetWith_not_halted image, step_resetWith image, fun _ h => congrArg State.resetWith (reachable_imem h)⟩

end Sys2Proof.Machine

/-! # What EXECUTE and the step do to the two stores

Proofs of the rules of spec/20_memory.md (R33, R36, R39): which word of which store an instruction and a step read and
write, what follows for the value an LD finds after any steps, and that the instruction store stays as it was loaded. -/

namespace Sys2Proof.Machine

/-! ## EXECUTE and the data store -/

/-- Every instruction but ST leaves the data store (R33). -/
theorem exec_dmem_of_not_st {i : Instr} {s t : State} (hi : i.isSt = false) (h : exec i s = .next t) :
    t.dmem = s.dmem := by
  rcases exec_next_cases h with ⟨a, v, rfl⟩ | ⟨a, b, -, rfl⟩ | ⟨addr, -, rfl⟩ | ⟨a, addr, rfl, -⟩ | rfl
  case inr.inr.inr.inl => simp [Instr.isSt] at hi
  all_goals rfl

/-- An instruction that does not store to a data word leaves that word; another ST leaves it too (R30, R33). -/
theorem exec_dmem_read_of_not_storesTo {i : Instr} {s t : State} {c : Addr} (hi : i.storesTo c = false)
    (h : exec i s = .next t) : t.dmem.read c = s.dmem.read c := by
  rcases exec_next_cases h with ⟨a, v, rfl⟩ | ⟨a, b, -, rfl⟩ | ⟨addr, -, rfl⟩ | ⟨a, addr, rfl, rfl⟩ | rfl
  case inr.inr.inr.inl =>
    have hne : dataAddress addr ≠ c := by simpa [Instr.storesTo] using hi
    exact Memory.read_write_other _ _ hne.symm
  all_goals rfl

/-- An instruction that is neither LD nor ST does the same whatever the data store, and hands the store on (R33). -/
theorem exec_with_dmem {i : Instr} (hl : i.isLd = false) (hs : i.isSt = false) (s : State) (m : Memory) :
    exec i { s with dmem := m } = mapNext (fun t => { t with dmem := m }) (exec i s) := by
  cases i
  case ld => simp [Instr.isLd] at hl
  case st => simp [Instr.isSt] at hs
  case je addr => cases hf : s.flag <;> simp [exec, execJe, State.setPc, hf]
  all_goals rfl

/-- An LD does the same in every data store that holds the same word at its address (R33). -/
theorem exec_ld_with_dmem {addr : Addr} {s : State} {m : Memory} (a : RegIdx)
    (h : m.read (dataAddress addr) = s.dmem.read (dataAddress addr)) :
    exec (.ld a addr) { s with dmem := m } = mapNext (fun t => { t with dmem := m }) (exec (.ld a addr) s) := by
  simp [exec, execLd, State.writeReg, h]

/-! ## EXECUTE, the step and the instruction store -/

/-- An instruction does the same whatever the instruction store, and hands the store on (R39, spec/10_state.md R18). -/
theorem exec_with_imem (i : Instr) (s : State) (m : Memory) :
    exec i { s with imem := m } = mapNext (fun t => { t with imem := m }) (exec i s) := by
  cases i
  case je addr => cases hf : s.flag <;> simp [exec, execJe, State.setPc, hf]
  all_goals rfl

/-- The fetch from another instruction store with the same word at `pc`: the same state but for that store. -/
theorem fetched_with_imem {s : State} {m : Memory} (h : m.read (s.pc.setWidth 8) = s.wordAtPc) :
    ({ s with imem := m } : State).fetched = { s.fetched with imem := m } := by
  simp [State.fetched, State.wordAtPc, h]

/-- A step depends on the instruction store only through the word at `pc` (R33). -/
theorem step_with_imem {s : State} {m : Memory} (h : m.read (s.pc.setWidth 8) = s.wordAtPc) :
    step { s with imem := m } = mapNext (fun t => { t with imem := m }) (step s) := by
  cases hh : s.halted with
  | true =>
    rw [step_of_halted hh, step_of_halted (s := { s with imem := m }) hh]
    rfl
  | false =>
    rcases Nat.lt_or_ge s.pc.toNat 256 with hp | hp
    · rw [step_of_fetch hh hp, step_of_fetch (s := { s with imem := m }) hh hp, fetched_with_imem h,
        show ({ s with imem := m } : State).wordAtPc = s.wordAtPc from h, exec_with_imem]
    · rw [step_of_pc_out hh hp, step_of_pc_out (s := { s with imem := m }) hh hp]
      rfl

/-! ## Steps and the data store -/

/-- A part of the state that every step without a picked-out instruction keeps is kept by any number of such steps. -/
theorem stepsWithout_keeps {α : Type} {p : Instr → Bool} {part : State → α}
    (hstep : ∀ {s t : State}, p (decode s.wordAtPc) = false → step s = .next t → part t = part s) {s u : State}
    (h : StepsWithout p s u) : part u = part s := by
  induction h with
  | refl => rfl
  | step hp hs _ ih => exact ih.trans (hstep hp hs)

/-- Steps that do not store to a data word leave that word. -/
theorem stepsWithout_dmem_read {c : Addr} {s u : State} (h : StepsWithout (Instr.storesTo c) s u) :
    u.dmem.read c = s.dmem.read c :=
  stepsWithout_keeps (part := fun s => s.dmem.read c) (fun {s _} hp hs =>
    exec_dmem_read_of_not_storesTo (s := s.fetched) hp (step_next_iff.mp hs).2.2) h

/-- A step that runs an LD leaves the word at its address in its register (spec/46_load_store.md R160). -/
theorem step_ld_readReg {s t : State} {b : RegIdx} {addr : Addr} (hd : decode s.wordAtPc = .ld b addr)
    (h : step s = .next t) : t.readReg b = s.dmem.read (dataAddress addr) := by
  obtain ⟨-, -, he⟩ := step_next_iff.mp h
  rw [hd] at he
  obtain rfl := Host.Outcome.next.inj he
  exact State.readReg_writeReg_same ..

/-- A step that runs an ST leaves its register in the word at its address (R161). -/
theorem step_st_dmem_read {s t : State} {a : RegIdx} {addr : Addr} (hd : decode s.wordAtPc = .st a addr)
    (h : step s = .next t) : t.dmem.read (dataAddress addr) = s.readReg a := by
  obtain ⟨-, -, he⟩ := step_next_iff.mp h
  rw [hd] at he
  obtain rfl := Host.Outcome.next.inj he
  exact Memory.read_write_same ..

/-! ## The obligations of spec/20_memory.md -/

/-- Settles O26: an ST to one word is not an ST to another; what an ST stores it reads from its register, so that its
clause about another data store holds by computation. -/
theorem storesAreTouchedOneWordAtATime : Obligations.StoresAreTouchedOneWordAtATime := by
  refine ⟨fun _ _ _ => exec_dmem_of_not_st, fun a addr c s t h hc => ?_,
    fun _ s m hl hs => exec_with_dmem hl hs s m, fun a _ _ _ => exec_ld_with_dmem a, fun _ _ _ _ => rfl,
    fun _ _ => step_with_imem⟩
  exact exec_dmem_read_of_not_storesTo (by simpa [Instr.storesTo] using hc.symm) h

/-- Settles O38: the store of a reachable state is the load image itself. -/
theorem instructionStoreNeverChanges : Obligations.InstructionStoreNeverChanges :=
  ⟨fun _ _ => step_imem, fun _ _ h a => congrArg (Memory.read · a) (reachable_imem h), exec_with_imem⟩

/-- Settles O40: the LD finds what the ST, or the reset, left in its word, since no step between them stores there. -/
theorem loadReturnsLatestStore : Obligations.LoadReturnsLatestStore := by
  refine ⟨fun s0 s1 s2 s3 a b addr hst h01 h12 hld h23 => ?_, fun image s2 s3 b addr h02 hld h23 => ?_,
    fun s hh a => if_pos hh⟩
  · calc s3.readReg b = s2.dmem.read (dataAddress addr) := step_ld_readReg hld h23
      _ = s1.dmem.read (dataAddress addr) := stepsWithout_dmem_read h12
      _ = s0.readReg a := step_st_dmem_read hst h01
  · exact (step_ld_readReg hld h23).trans (stepsWithout_dmem_read h02)

end Sys2Proof.Machine

/-! # The encoding: what the opcode decides, and which bits a format uses

Proofs of the rules of spec/30_encoding.md about single words (R55 to R60). The opcode of a word is the number of the
instruction it decodes to, and the number of a well-formed instruction is that of its row in the opcode table; decoding
reads, beside the opcode, only the fields of the instruction's format, and encoding sets no bit outside them. -/

namespace Sys2Proof

open Sys2Proof.Laws.OpcodeOfEncode (number)

/-! ## Fields of masked words -/

theorem opcode_and (v w : Word) : opcode (v &&& w) = opcode v &&& opcode w := BitVec.extractLsb'_and
theorem registerA_and (v w : Word) : registerA (v &&& w) = registerA v &&& registerA w := BitVec.extractLsb'_and
theorem registerB_and (v w : Word) : registerB (v &&& w) = registerB v &&& registerB w := BitVec.extractLsb'_and
theorem immediate_and (v w : Word) : immediate (v &&& w) = immediate v &&& immediate w := BitVec.extractLsb'_and
theorem lowBits_and (v w : Word) : lowBits (v &&& w) = lowBits v &&& lowBits w := BitVec.extractLsb'_and

/-- A word is its opcode followed by its low bits (R51). -/
theorem opcode_append_lowBits (w : Word) : opcode w ++ lowBits w = w := by
  unfold opcode lowBits
  exact (BitVec.extractLsb'_append_extractLsb'_eq_extractLsb' (start₁ := 0) rfl).trans BitVec.extractLsb'_eq_self

theorem word_eq_iff (v w : Word) : v = w ↔ opcode v = opcode w ∧ lowBits v = lowBits w := by
  refine ⟨fun h => h ▸ ⟨rfl, rfl⟩, fun ⟨hop, hlow⟩ => ?_⟩
  rw [← opcode_append_lowBits v, hop, hlow, opcode_append_lowBits]

/-! ## What the opcode decides -/

/-- The number of the decoded instruction is the opcode of the word (R57). -/
theorem number_decode (w : Word) : number (decode w) = opcode w := by
  unfold decode
  split
  case h_17 => rfl
  all_goals exact (BitVec.eq_of_toNat_eq ‹_›).symm

theorem decode_wf (w : Word) : (decode w).wf = true := by
  unfold decode
  split
  case h_17 =>
    simp only [imp_false] at *
    have h16 : 16 ≤ (opcode w).toNat := by omega
    exact decide_eq_true h16
  all_goals rfl

/-- A word whose opcode is in no other row is an UNK and carries its bits along (R59, spec/40_codec.md R95). -/
theorem decode_of_opcode_ge {w : Word} (h : 16 ≤ (opcode w).toNat) : decode w = .unk (opcode w) (lowBits w) := by
  unfold decode
  split
  case h_17 => rfl
  all_goals omega

theorem decode_eq_unk_iff (w : Word) : (∃ op low, decode w = .unk op low) ↔ 16 ≤ (opcode w).toNat := by
  refine ⟨fun ⟨op, low, h⟩ => ?_, fun h => ⟨_, _, decode_of_opcode_ge h⟩⟩
  have hwf : (Instr.unk op low).wf = true := h ▸ decode_wf w
  have hop : op = opcode w := (congrArg number h).symm.trans (number_decode w)
  exact hop ▸ of_decide_eq_true hwf

/-! ## The opcode table -/

/-- The row of an opcode: opcodes 0 to 15 have a row each, all others share the UNK row (R55). -/
def rowOfOpcode (n : BitVec 5) : OpcodeRow := opcodeTable[min n.toNat 16]'(by simp [opcodeTable])

theorem rowOfOpcode_mem (n : BitVec 5) : rowOfOpcode n ∈ opcodeTable := List.getElem_mem _

/-- A well-formed instruction has the mnemonic and the format of its number's row. -/
theorem rowOfOpcode_number {i : Instr} (h : i.wf = true) :
    (rowOfOpcode (number i)).mnemonic = i.mnemonic ∧ (rowOfOpcode (number i)).format = i.format := by
  cases i
  case unk op low =>
    have hmin : min op.toNat 16 = 16 := Nat.min_eq_right (of_decide_eq_true h)
    simp [rowOfOpcode, number, hmin, opcodeTable, Instr.mnemonic, Instr.format]
  all_goals exact ⟨rfl, rfl⟩

/-- The table tests the opcode alone (R57). -/
theorem lowBits_of_mem_opcodeTable :
    ∀ row ∈ opcodeTable, lowBits row.mask = 0 ∧ lowBits row.pattern = 0 := by decide

/-- Each opcode passes the test of its own row and of no other. -/
theorem opcode_test_iff : ∀ row ∈ opcodeTable, ∀ n : BitVec 5,
    n &&& opcode row.mask = opcode row.pattern ↔ (rowOfOpcode n).mnemonic = row.mnemonic := by decide

/-- A word passes the test of the row its opcode has, and of no other (R55). -/
theorem and_mask_eq_pattern_iff {row : OpcodeRow} (h : row ∈ opcodeTable) (w : Word) :
    w &&& row.mask = row.pattern ↔ (rowOfOpcode (opcode w)).mnemonic = row.mnemonic := by
  obtain ⟨hmask, hpattern⟩ := lowBits_of_mem_opcodeTable row h
  rw [word_eq_iff, opcode_and, lowBits_and, hmask, hpattern, opcode_test_iff row h]
  simp

/-! ## Used and unused bits -/

/-- Decoding reads the opcode and, of the rest, only what the format of the decoded instruction uses: in each of the
decoder's arms the hypotheses for that arm's format give the operands. -/
theorem decode_congr {v w : Word} (hop : opcode v = opcode w)
    (hA : usesRa (decode w).format = true → registerA v = registerA w)
    (hB : usesRb (decode w).format = true → registerB v = registerB w)
    (h8 : usesF8 (decode w).format = true → immediate v = immediate w)
    (hlow : (decode w).format = .none → lowBits v = lowBits w) : decode v = decode w := by
  unfold decode at *
  rw [hop]
  split <;> simp_all [Instr.format, usesRa, usesRb, usesF8, address]

/-- The used bits of a format are the opcode and all of each field it uses (spec/40_codec.md R98). -/
theorem usedMask_fields (f : Format) :
    opcode (usedMask f) = BitVec.allOnes 5 ∧
    (usesRa f = true → registerA (usedMask f) = BitVec.allOnes 3) ∧
    (usesRb f = true → registerB (usedMask f) = BitVec.allOnes 3) ∧
    (usesF8 f = true → immediate (usedMask f) = BitVec.allOnes 8) ∧
    (f = .none → lowBits (usedMask f) = BitVec.allOnes 11) := by
  cases f <;> decide

/-- A field that a mask keeps is the same in words that agree under the mask. -/
theorem field_eq_of_and_eq {k : Nat} {field : Word → BitVec k}
    (hand : ∀ v w, field (v &&& w) = field v &&& field w) {m v w : Word} (hm : field m = BitVec.allOnes k)
    (h : v &&& m = w &&& m) : field v = field w := by
  simpa [hand, hm] using congrArg field h

theorem or_and_of_and {v w m : Word} (hv : v &&& m = v) (hw : w &&& m = w) : (v ||| w) &&& m = v ||| w := by
  rw [BitVec.and_or_distrib_right, hv, hw]

/-- Every format uses the whole opcode field. -/
theorem and_usedMask_of_lowBits {v : Word} (h : lowBits v = 0) (f : Format) : v &&& usedMask f = v := by
  rw [word_eq_iff, opcode_and, lowBits_and, (usedMask_fields f).1, h]
  exact ⟨BitVec.and_allOnes, BitVec.zero_and⟩

theorem placeA_and_usedMask {f : Format} (h : usesRa f = true) (v : Word) : placeA v &&& usedMask f = placeA v := by
  have hm : 0x0700#16 &&& usedMask f = 0x0700#16 := by revert h; cases f <;> decide
  rw [placeA, BitVec.shiftLeft_and_distrib, BitVec.and_assoc]
  exact congrArg (v <<< 8 &&& ·) hm

theorem placeB_and_usedMask {f : Format} (h : usesRb f = true) (v : Word) : placeB v &&& usedMask f = placeB v := by
  have hm : 0x00E0#16 &&& usedMask f = 0x00E0#16 := by revert h; cases f <;> decide
  rw [placeB, BitVec.shiftLeft_and_distrib, BitVec.and_assoc]
  exact congrArg (v <<< 5 &&& ·) hm

theorem place8_and_usedMask {f : Format} (h : usesF8 f = true) (v : Word) : place8 v &&& usedMask f = place8 v := by
  have hm : 0x00FF#16 &&& usedMask f = 0x00FF#16 := by revert h; cases f <;> decide
  rw [place8, BitVec.and_assoc, hm]

/-- An encoded word has no bit outside those its format uses (R58, the spec's decision D2). -/
theorem encode_and_usedMask (i : Instr) : encode i &&& usedMask i.format = encode i := by
  cases i
  case mov | add | sub | and | or | cmp =>
    exact or_and_of_and (or_and_of_and (and_usedMask_of_lowBits (by decide) _) (placeA_and_usedMask rfl _))
      (placeB_and_usedMask rfl _)
  case sl | sr | sra => exact or_and_of_and (and_usedMask_of_lowBits (by decide) _) (placeA_and_usedMask rfl _)
  case ldl | ldh | ld | st =>
    exact or_and_of_and (or_and_of_and (and_usedMask_of_lowBits (by decide) _) (placeA_and_usedMask rfl _))
      (place8_and_usedMask rfl _)
  case je | jmp => exact or_and_of_and (and_usedMask_of_lowBits (by decide) _) (place8_and_usedMask rfl _)
  case hlt => rfl
  case unk => exact BitVec.and_allOnes

end Sys2Proof

namespace Sys2Proof.Machine

/-! ## The obligations of spec/30_encoding.md -/

/-- Settles O8: both the test of a row and the decoder come down to the row of the word's opcode. -/
theorem opcodeTableSelectsInstruction : Obligations.OpcodeTableSelectsInstruction := by
  intro w
  obtain ⟨hmnemonic, hformat⟩ := rowOfOpcode_number (decode_wf w)
  rw [number_decode] at hmnemonic hformat
  refine ⟨fun row hrow => ?_, rowOfOpcode (opcode w), rowOfOpcode_mem _, ?_, hformat.symm⟩
  · rw [and_mask_eq_pattern_iff hrow, hmnemonic]
  · exact (and_mask_eq_pattern_iff (rowOfOpcode_mem _) w).mpr rfl

/-- Settles O9: words that agree on the used bits agree on the opcode and on every field that decoding reads. -/
theorem unusedBitsAreIgnored : Obligations.UnusedBitsAreIgnored := by
  refine ⟨fun v w h => ?_, encode_and_usedMask⟩
  obtain ⟨hop, hA, hB, h8, hlow⟩ := usedMask_fields (decode w).format
  exact decode_congr (field_eq_of_and_eq opcode_and hop h)
    (fun hu => field_eq_of_and_eq registerA_and (hA hu) h) (fun hu => field_eq_of_and_eq registerB_and (hB hu) h)
    (fun hu => field_eq_of_and_eq immediate_and (h8 hu) h) (fun hf => field_eq_of_and_eq lowBits_and (hlow hf) h)

/-- Settles O10: the decoder answers an UNK only for an opcode from 16 on, and every instruction completes. -/
theorem everyWordDecodesAndExecutes : Obligations.EveryWordDecodesAndExecutes :=
  fun w => ⟨decode_wf w, exec_total (decode w)⟩

/-- Settles O32: the fetched word is an UNK, whose execute phase changes nothing, and its opcode is not HLT's. -/
theorem undefinedOpcodesStepAsNoOps : Obligations.UndefinedOpcodesStepAsNoOps := by
  refine ⟨decode_eq_unk_iff, fun s hh hp hop => ⟨cycle_next_iff.mpr ⟨hh, hp, ?_, rfl⟩, ?_⟩⟩
  · rw [decode_of_opcode_ge hop]
    rfl
  · have hne : opcode s.wordAtPc ≠ 15#5 := fun h => by simp [h] at hop
    exact beq_eq_false_iff_ne.mpr hne

/-- Settles O2: ten closed words, decoded by evaluation. -/
theorem specWordsDecode : Obligations.SpecWordsDecode := by
  unfold Obligations.SpecWordsDecode
  decide

end Sys2Proof.Machine

/-! # The codec: the one formula, and decode and encode undo each other

Proofs of the rules of spec/40_codec.md (R89 to R99). The sixteen encoders are one formula of an opcode number and a
format; each operand that the format uses comes back from its field of that formula, so that decoding an encoded word
gives the operands again, and encoding the fields of a word keeps the bits its format uses. -/

namespace Sys2Proof

/-! ## The fields of the formula -/

/-- An UNK is encoded as its opcode followed by its low bits (spec/30_encoding.md R63). -/
theorem encode_unk (op : BitVec 5) (low : BitVec 11) : encode (.unk op low) = op ++ low :=
  BitVec.setWidth_append_eq_shiftLeft_setWidth_or.symm.trans (BitVec.setWidth_eq _)

/-- The opcode part of the formula holds nothing below the opcode field. -/
theorem shifted_opcode_eq_append (n : BitVec 5) : n.setWidth 16 <<< 11 = n ++ 0#11 :=
  BitVec.or_zero.symm.trans (encode_unk n 0)

section

variable (n : BitVec 5) (low : BitVec 11) (f : Format) (ra rb f8 : Word)

@[simp] theorem opcode_append : opcode (n ++ low) = n := BitVec.extractLsb'_append_eq_left
@[simp] theorem lowBits_append : lowBits (n ++ low) = low := BitVec.extractLsb'_append_eq_right
@[simp] theorem registerA_append : registerA (n ++ low) = low.extractLsb' 8 3 :=
  BitVec.extractLsb'_append_eq_of_add_le (by decide)
@[simp] theorem registerB_append : registerB (n ++ low) = low.extractLsb' 5 3 :=
  BitVec.extractLsb'_append_eq_of_add_le (by decide)
@[simp] theorem immediate_append : immediate (n ++ low) = low.extractLsb' 0 8 :=
  BitVec.extractLsb'_append_eq_of_add_le (by decide)

theorem opcode_encodeFields : opcode (encodeFields n f ra rb f8) = n := by
  cases f <;> simp [encodeFields, shifted_opcode_eq_append, usesRa, usesRb, usesF8, opcode_or, opcode_placeA,
    opcode_placeB, opcode_place8]

theorem registerA_encodeFields (h : usesRa f = true) : registerA (encodeFields n f ra rb f8) = ra.setWidth 3 := by
  revert h
  cases f <;> simp [encodeFields, shifted_opcode_eq_append, usesRa, usesRb, usesF8, registerA_or, registerA_placeA,
    registerA_placeB, registerA_place8]

/-- No format has both a register-B field and the 8-bit field that overlaps it (spec/30_encoding.md R52). -/
theorem registerB_encodeFields (h : usesRb f = true) : registerB (encodeFields n f ra rb f8) = rb.setWidth 3 := by
  revert h
  cases f <;> simp [encodeFields, shifted_opcode_eq_append, usesRa, usesRb, usesF8, registerB_or, registerB_placeA,
    registerB_placeB]

theorem immediate_encodeFields (h : usesF8 f = true) : immediate (encodeFields n f ra rb f8) = f8.setWidth 8 := by
  revert h
  cases f <;> simp [encodeFields, shifted_opcode_eq_append, usesRa, usesRb, usesF8, immediate_or, immediate_placeA,
    immediate_place8]

theorem placeA_mask : placeA (ra &&& 0x7#16) = placeA ra := by
  rw [placeA, BitVec.and_assoc]
  rfl

theorem placeB_mask : placeB (rb &&& 0x7#16) = placeB rb := by
  rw [placeB, BitVec.and_assoc]
  rfl

theorem place8_mask : place8 (f8 &&& 0xFF#16) = place8 f8 := by
  rw [place8, BitVec.and_assoc]
  rfl

/-- The formula masks its operands (R70, R97). -/
theorem encodeFields_mask :
    encodeFields n f (ra &&& 0x7#16) (rb &&& 0x7#16) (f8 &&& 0xFF#16) = encodeFields n f ra rb f8 := by
  simp only [encodeFields, placeA_mask, placeB_mask, place8_mask]

end

/-! ## The encoders are the formula, and decode to their operands -/

/-- Settles O6: without the fields its format lacks, the formula is the encoder's own definition. -/
theorem encodersAreOneFormula : Obligations.EncodersAreOneFormula := by
  intro ra rb f8
  simp only [encodeFields, usesRa, usesRb, usesF8, Bool.false_eq_true, if_true, if_false, BitVec.ofNat_eq_ofNat,
    BitVec.or_zero]
  exact ⟨rfl, rfl, rfl, rfl, rfl, rfl, rfl, rfl, rfl, rfl, rfl, rfl, rfl, rfl, rfl, rfl⟩

/-- The word of each encoder decodes to its instruction with the masked operands (R96, R97). -/
theorem decode_encoders (ra rb f8 : Word) :
    decode (encMOV ra rb) = .mov (ra.setWidth 3) (rb.setWidth 3) ∧
    decode (encADD ra rb) = .add (ra.setWidth 3) (rb.setWidth 3) ∧
    decode (encSUB ra rb) = .sub (ra.setWidth 3) (rb.setWidth 3) ∧
    decode (encAND ra rb) = .and (ra.setWidth 3) (rb.setWidth 3) ∧
    decode (encOR ra rb) = .or (ra.setWidth 3) (rb.setWidth 3) ∧
    decode (encSL ra) = .sl (ra.setWidth 3) ∧
    decode (encSR ra) = .sr (ra.setWidth 3) ∧
    decode (encSRA ra) = .sra (ra.setWidth 3) ∧
    decode (encLDL ra f8) = .ldl (ra.setWidth 3) (f8.setWidth 8) ∧
    decode (encLDH ra f8) = .ldh (ra.setWidth 3) (f8.setWidth 8) ∧
    decode (encCMP ra rb) = .cmp (ra.setWidth 3) (rb.setWidth 3) ∧
    decode (encJE f8) = .je (f8.setWidth 8) ∧
    decode (encJMP f8) = .jmp (f8.setWidth 8) ∧
    decode (encLD ra f8) = .ld (ra.setWidth 3) (f8.setWidth 8) ∧
    decode (encST ra f8) = .st (ra.setWidth 3) (f8.setWidth 8) ∧
    decode encHLT = .hlt := by
  have hformula := encodersAreOneFormula ra rb f8
  simp (disch := decide) [hformula, decode, opcode_encodeFields, registerA_encodeFields, registerB_encodeFields,
    immediate_encodeFields, address]

/-- Decode after encode is the identity (R96). -/
theorem decode_encode {i : Instr} (h : i.wf = true) : decode (encode i) = i := by
  cases i
  case unk op low =>
    have hop : 16 ≤ op.toNat := of_decide_eq_true h
    rw [encode_unk, decode_of_opcode_ge (by rwa [opcode_append]), opcode_append, lowBits_append]
  case mov a b | add a b | sub a b | and a b | or a b | cmp a b =>
    simp [encode, decode_encoders (a.setWidth 16) (b.setWidth 16) 0]
  case sl a | sr a | sra a => simp [encode, decode_encoders (a.setWidth 16) 0 0]
  case ldl a v | ldh a v | ld a v | st a v => simp [encode, decode_encoders (a.setWidth 16) 0 (v.setWidth 16)]
  case je v | jmp v => simp [encode, decode_encoders 0 0 (v.setWidth 16)]
  case hlt => exact (decode_eq_hlt_iff _).mpr rfl

/-! ## The word put together of its own fields -/

theorem shifted_opcode_eq_and (w : Word) : (opcode w).setWidth 16 <<< 11 = w &&& 0xF800#16 := by
  rw [word_eq_iff, shifted_opcode_eq_append, opcode_append, lowBits_append, opcode_and, lowBits_and]
  exact ⟨BitVec.and_allOnes.symm, BitVec.and_zero.symm⟩

theorem placeA_registerA (w : Word) : placeA ((registerA w).setWidth 16) = w &&& 0x0700#16 := by
  unfold placeA registerA; ext k hk; interval_cases k <;> simp

theorem placeB_registerB (w : Word) : placeB ((registerB w).setWidth 16) = w &&& 0x00E0#16 := by
  unfold placeB registerB; ext k hk; interval_cases k <;> simp

theorem place8_immediate (w : Word) : place8 ((immediate w).setWidth 16) = w &&& 0x00FF#16 := by
  unfold place8 immediate; ext k hk; interval_cases k <;> simp

/-- The formula at the fields of a word keeps the bits the format uses (R98). -/
theorem encodeFields_projections {w : Word} {n : BitVec 5} {f : Format} (hn : opcode w = n) (hf : f ≠ .none) :
    encodeFields n f ((registerA w).setWidth 16) ((registerB w).setWidth 16) ((immediate w).setWidth 16) =
      w &&& usedMask f := by
  subst hn
  rw [encodeFields, shifted_opcode_eq_and, placeA_registerA, placeB_registerB, place8_immediate]
  cases f
  case none => exact absurd rfl hf
  all_goals simp [usesRa, usesRb, usesF8, usedMask, ← BitVec.and_or_distrib_left]

/-- Encode after decode clears the unused bits (R98): every arm of the decoder but the last encodes by the formula. -/
theorem encode_decode (w : Word) : encode (decode w) = w &&& usedMask (decode w).format := by
  have hformula := encodersAreOneFormula ((registerA w).setWidth 16) ((registerB w).setWidth 16)
    ((immediate w).setWidth 16)
  unfold decode
  split
  case h_17 =>
    rw [encode_unk, opcode_append_lowBits]
    exact BitVec.and_allOnes.symm
  all_goals
    simp only [encode, address, hformula]
    exact encodeFields_projections (BitVec.eq_of_toNat_eq ‹_›) (by decide)

/-! ## Named instructions: those with an encoder -/

theorem format_eq_none_iff (i : Instr) : i.format = .none ↔ ∃ op low, i = .unk op low := by
  cases i <;> simp [Instr.format]

theorem wf_of_format_ne_none {i : Instr} (h : i.format ≠ .none) : i.wf = true := by
  cases i
  case unk => exact absurd rfl h
  all_goals rfl

/-- A word decodes to a named instruction exactly when its opcode is at most 15 (spec/30_encoding.md R55, R59). -/
theorem decode_format_ne_none_iff (w : Word) : (decode w).format ≠ .none ↔ (opcode w).toNat ≤ 15 := by
  rw [Ne, format_eq_none_iff, decode_eq_unk_iff, Nat.not_le, Nat.lt_succ_iff]

/-- The word of a well-formed instruction has 0 in every unused bit. -/
theorem canonical_encode {i : Instr} (h : i.wf = true) : Canonical (encode i) := by
  rw [Canonical, decode_encode h]
  exact encode_and_usedMask i

/-! ## The projections on plain numbers -/

theorem toNat_extractLsb'_eq_and (w : Word) (start len : Nat) :
    (w.extractLsb' start len).toNat = (w.toNat >>> start) &&& (2 ^ len - 1) := by
  rw [BitVec.extractLsb'_toNat, Nat.and_two_pow_sub_one_eq_mod]

/-! ## The obligations of spec/40_codec.md -/

/-- Settles O3: both round trips go through the one formula; UNK, which it does not cover, is its raw word. -/
theorem decodeAndEncodeAgree : Obligations.DecodeAndEncodeAgree :=
  ⟨fun _ => decode_encode, fun w => ⟨decode_wf w, encode_decode w⟩⟩

/-- Settles O4: what the fields of the formula hold is the operand itself when the operand is in range. -/
theorem encodedFieldsComeBack : Obligations.EncodedFieldsComeBack := by
  intro ra rb f8 hra hrb h8
  have hformula := encodersAreOneFormula ra rb f8
  simp (disch := decide) [hformula, opcode_encodeFields, registerA_encodeFields, registerB_encodeFields,
    immediate_encodeFields, address, hra, hrb, h8]

/-- Settles O5: the formula is the same at the masked operands, and its word decodes to them. -/
theorem encodersMaskOperands : Obligations.EncodersMaskOperands := by
  intro ra rb f8
  have hformula := encodersAreOneFormula ra rb f8
  have hmasked := encodersAreOneFormula (ra &&& 0x7#16) (rb &&& 0x7#16) (f8 &&& 0xFF#16)
  have hexamples : encMOV 9 3 = encMOV 1 3 ∧ encJMP 300 = encJMP 44 := by decide
  simp only [List.forall_mem_cons, decode_encoders ra rb f8]
  simpa [hformula, hmasked, encodeFields_mask] using hexamples

/-- Settles O7: decode is a left inverse of encode, and a canonical word is the encoding of what it decodes to. -/
theorem encodersProduceCanonicalWords : Obligations.EncodersProduceCanonicalWords := by
  refine ⟨fun i j hi hj h => ?_, fun w => ⟨?_, fun ⟨hop, hw⟩ => ?_⟩⟩
  · calc i = decode (encode i) := (decode_encode hi).symm
      _ = decode (encode j) := congrArg decode h
      _ = j := decode_encode hj
  · rintro ⟨i, hi, rfl⟩
    have hwf := wf_of_format_ne_none hi
    exact ⟨(decode_format_ne_none_iff _).mp (by rwa [decode_encode hwf]), canonical_encode hwf⟩
  · exact ⟨decode w, (decode_format_ne_none_iff w).mpr hop, (encode_decode w).trans hw⟩

/-- Settles O1: each projection is an extraction, which on numbers is a shift and a mask. -/
theorem projectionsReadTheirBits : Obligations.ProjectionsReadTheirBits := fun w =>
  ⟨toNat_extractLsb'_eq_and w 11 5, toNat_extractLsb'_eq_and w 8 3, toNat_extractLsb'_eq_and w 5 3,
    toNat_extractLsb'_eq_and w 0 8, rfl⟩

end Sys2Proof

/-! # The instruction cycle: the pseudocode of a step, its record, and runs

Proofs of the rules of spec/41_instruction_cycle.md (R100 to R110). Seen as plain numbers, EXECUTE of a decoded word is
the table of R104 on the fields of that word, and so the cycle is the pseudocode of R100. What holds of every bounded
run is proved by one induction along the run. -/

namespace Sys2Proof

/-! ## The fields of a word as plain numbers -/

theorem toNat_extractLsb'_eq_div_mod {n : Nat} (v : BitVec n) (start len : Nat) :
    (v.extractLsb' start len).toNat = v.toNat / 2 ^ start % 2 ^ len := by
  rw [BitVec.extractLsb'_toNat, Nat.shiftRight_eq_div_pow]

theorem toNat_append_eq_mul_add {m n : Nat} (v : BitVec m) (w : BitVec n) :
    (v ++ w).toNat = v.toNat * 2 ^ n + w.toNat := by
  rw [BitVec.toNat_append, ← Nat.shiftLeft_add_eq_or_of_lt w.isLt, Nat.shiftLeft_eq]

section

variable (w : Word)

theorem toNat_opcode : (opcode w).toNat = w.toNat / 2048 % 32 := toNat_extractLsb'_eq_div_mod w 11 5
theorem toNat_registerA : (registerA w).toNat = w.toNat / 256 % 8 := toNat_extractLsb'_eq_div_mod w 8 3
theorem toNat_registerB : (registerB w).toNat = w.toNat / 32 % 8 := toNat_extractLsb'_eq_div_mod w 5 3
theorem toNat_immediate : (immediate w).toNat = w.toNat % 256 := BitVec.extractLsb'_toNat 0 8 w

end

end Sys2Proof

namespace Sys2Proof.Machine

/-! ## Results as plain numbers -/

section

variable (v w : Word) (imm : Byte)

theorem toNat_sub_eq_mod : (v - w).toNat = (v.toNat + 65536 - w.toNat) % 65536 := by
  rw [BitVec.toNat_sub]
  omega

theorem toNat_shiftLeft1 : (shiftLeft1 w).toNat = 2 * w.toNat % 65536 := by
  rw [shiftLeft1, BitVec.toNat_shiftLeft, Nat.shiftLeft_eq, pow_one, Nat.mul_comm]

theorem toNat_shiftRight1 : (shiftRight1 w).toNat = w.toNat / 2 := by
  rw [shiftRight1, BitVec.toNat_ushiftRight, Nat.shiftRight_eq_div_pow, pow_one]

/-- SRA puts the old bit 15 in front of the bits 15..1 (spec/43_shift.md R132). -/
theorem shiftRightArith1_eq_append : shiftRightArith1 w = w.extractLsb' 15 1 ++ w.extractLsb' 1 15 := by
  refine BitVec.eq_of_getLsbD_eq fun k hk => ?_
  rw [shiftRightArith1, BitVec.getLsbD_append]
  interval_cases k <;> simp

theorem toNat_shiftRightArith1 : (shiftRightArith1 w).toNat = w.toNat / 32768 * 32768 + w.toNat / 2 := by
  rw [shiftRightArith1_eq_append, toNat_append_eq_mul_add, toNat_extractLsb'_eq_div_mod,
    toNat_extractLsb'_eq_div_mod]
  omega

/-- LDL puts the old high byte in front of the immediate (spec/44_byte_load.md R140). -/
theorem withLowByte_eq_append : withLowByte w imm = w.extractLsb' 8 8 ++ imm := by
  refine BitVec.eq_of_getLsbD_eq fun k hk => ?_
  rw [withLowByte, BitVec.getLsbD_append]
  interval_cases k <;> simp

theorem toNat_withLowByte : (withLowByte w imm).toNat = w.toNat / 256 * 256 + imm.toNat := by
  rw [withLowByte_eq_append, toNat_append_eq_mul_add, toNat_extractLsb'_eq_div_mod]
  omega

/-- LDH puts the immediate in front of the old low byte (R141). -/
theorem withHighByte_eq_append : withHighByte w imm = imm ++ w.extractLsb' 0 8 := by
  refine BitVec.eq_of_getLsbD_eq fun k hk => ?_
  rw [withHighByte, BitVec.getLsbD_append]
  interval_cases k <;> simp

theorem toNat_withHighByte : (withHighByte w imm).toNat = imm.toNat * 256 + w.toNat % 256 := by
  rw [withHighByte_eq_append, toNat_append_eq_mul_add, toNat_extractLsb'_eq_div_mod]
  omega

end

/-! ## Registers and stores as the pseudocode sees them -/

theorem absRegs_of_lt {x : Vector Word 8} {i : Nat} (h : i < 8) : absRegs x i = x[i].toNat := dif_pos h
theorem absRegs_of_ge {x : Vector Word 8} {i : Nat} (h : 8 ≤ i) : absRegs x i = 0 := dif_neg (by omega)

theorem absStore_of_lt {m : Memory} {k : Nat} (h : k < 256) : absStore m k = (m.read (BitVec.ofNat 8 k)).toNat :=
  if_pos h
theorem absStore_of_ge {m : Memory} {k : Nat} (h : 256 ≤ k) : absStore m k = 0 := if_neg (by omega)

theorem absRegs_set (x : Vector Word 8) (r : RegIdx) (v : Word) :
    absRegs (x.set r.toNat v r.isLt) = setAt (absRegs x) r.toNat v.toNat := by
  have hr : r.toNat < 8 := r.isLt
  funext i
  rcases Nat.lt_or_ge i 8 with hi | hi
  · rw [setAt, absRegs_of_lt hi, absRegs_of_lt hi, Vector.getElem_set, apply_ite BitVec.toNat]
    simp only [eq_comm (a := i)]
  · rw [setAt, absRegs_of_ge hi, absRegs_of_ge hi, if_neg (by omega)]

theorem absStore_write (m : Memory) (a : Addr) (v : Word) :
    absStore (m.write a v) = setAt (absStore m) a.toNat v.toNat := by
  have ha : a.toNat < 256 := a.isLt
  funext k
  rcases Nat.lt_or_ge k 256 with hk | hk
  · have hka : BitVec.ofNat 8 k = a ↔ k = a.toNat := by
      rw [← BitVec.toNat_inj, BitVec.toNat_ofNat, Nat.mod_eq_of_lt hk]
    rw [setAt, absStore_of_lt hk, absStore_of_lt hk, Memory.read_write, apply_ite BitVec.toNat]
    simp only [hka]
  · rw [setAt, absStore_of_ge hk, absStore_of_ge hk, if_neg (by omega)]

theorem absStore_toNat (m : Memory) (a : Addr) : absStore m a.toNat = (m.read a).toNat := by
  rw [absStore_of_lt a.isLt, BitVec.ofNat_toNat, BitVec.setWidth_eq]

/-! ## The state as the pseudocode sees it -/

section

variable (s : State) (r : RegIdx) (v : Word) (b : Bool) (a : Addr)

theorem abs_pc : s.abs.pc = s.pc.toNat := rfl

theorem abs_x : s.abs.x r.toNat = (s.readReg r).toNat := absRegs_of_lt r.isLt

theorem abs_dmem : s.abs.dmem a.toNat = (s.dmem.read a).toNat := absStore_toNat s.dmem a

theorem abs_flag_eq_one_iff : s.abs.flag = 1 ↔ s.flag = true := by
  cases hf : s.flag <;> simp [State.abs, hf]

theorem abs_writeReg : (s.writeReg r v).abs = { s.abs with x := setAt s.abs.x r.toNat v.toNat } :=
  congrArg (AbsState.mk · _ _ _ _ _) (absRegs_set s.x r v)

theorem abs_setFlag : (s.setFlag b).abs = { s.abs with flag := if b then 1 else 0 } := rfl

/-- A jump writes its 8-bit address to `pc` (spec/45_compare_branch.md R153). -/
theorem abs_setPc_jumpTarget : (s.setPc (jumpTarget a)).abs = { s.abs with pc := a.toNat } :=
  congrArg (AbsState.mk _ · _ _ _ _) (BitVec.toNat_setWidth_of_le (by decide))

theorem abs_storeData : (s.storeData a v).abs = { s.abs with dmem := setAt s.abs.dmem a.toNat v.toNat } :=
  congrArg (AbsState.mk _ _ _ _ _) (absStore_write s.dmem a v)

theorem abs_fetched : s.fetched.abs = { s.abs with ir := s.wordAtPc.toNat, pc := (s.pc.toNat + 1) % 65536 } := rfl

/-- The word the pseudocode fetches is the one the machine fetches. -/
theorem abs_imem_pc {s : State} (h : s.pc.toNat < 256) : s.abs.imem s.pc.toNat = s.wordAtPc.toNat :=
  absStore_of_lt h

/-- The halt test on the bits of `IR` (R105, spec/10_state.md R16). -/
theorem halted_iff_abs_ir : s.halted = true ↔ s.abs.ir / 2048 % 32 = 15 := by
  rw [State.halted, beq_iff_eq, ← BitVec.toNat_inj, toNat_opcode]
  rfl

end

/-! ## The three outcomes of a cycle -/

/-- A halted machine has no cycle (R105). -/
theorem cycle_of_halted {s : State} (h : s.halted = true) : cycle s = .refused .halted := if_pos h

/-- A machine whose `pc` is past the store cannot fetch (R101). -/
theorem cycle_of_pc_out {s : State} (h : s.halted = false) (hp : 256 ≤ s.pc.toNat) :
    cycle s = .fault (.fetchOutOfRange s.pc) := by
  have hfetch : fetch s = .fault (.fetchOutOfRange s.pc) := if_neg (Nat.not_lt.mpr hp)
  simp [cycle, h, hfetch, andThen]

/-- Every other machine completes its cycle. -/
theorem cycle_total {s : State} (h : s.halted = false) (hp : s.pc.toNat < 256) :
    ∃ t, exec (decode s.wordAtPc) s.fetched = .next t ∧ cycle s = .next (t, ⟨s.pc, s.wordAtPc, t.x⟩) := by
  obtain ⟨t, ht⟩ := exec_total (decode s.wordAtPc) s.fetched
  exact ⟨t, ht, cycle_next_iff.mpr ⟨h, hp, ht, rfl⟩⟩

/-! ## EXECUTE is the table of R104 -/

/-- HLT and every opcode above it change nothing in the table of R104. -/
theorem absExecute_of_ge {op : Nat} (h : 15 ≤ op) (A B f8 : Nat) (S : AbsState) : absExecute op A B f8 S = S := by
  unfold absExecute
  split
  case h_16 => rfl
  all_goals omega

/-- EXECUTE of a decoded word is the table of R104 on the fields of the word. -/
theorem abs_exec_decode {w : Word} {s t : State} (h : exec (decode w) s = .next t) :
    t.abs = absExecute (opcode w).toNat (registerA w).toNat (registerB w).toNat (immediate w).toNat s.abs := by
  unfold decode at h
  split at h <;> obtain rfl := Host.Outcome.next.inj h
  case h_17 => -- UNK
    simp only [imp_false] at *
    have hop : 15 ≤ (opcode w).toNat := by omega
    exact (absExecute_of_ge hop ..).symm
  all_goals simp only [‹(opcode w).toNat = _›, absExecute, abs_x, abs_dmem, abs_flag_eq_one_iff]
  case h_11 => -- CMP
    simp only [abs_setFlag, equalFlag, beq_iff_eq, BitVec.toNat_inj]
  case h_12 => -- JE
    split <;> simp only [abs_setPc_jumpTarget, address]
  case h_13 => -- JMP
    exact abs_setPc_jumpTarget ..
  case h_14 => -- LD
    exact abs_writeReg ..
  case h_15 => -- ST
    exact abs_storeData ..
  all_goals -- the instructions that compute a register from registers
    simp only [regPairOp, regOp, abs_writeReg, BitVec.toNat_add, toNat_sub_eq_mod, BitVec.toNat_and,
      BitVec.toNat_or, toNat_shiftLeft1, toNat_shiftRight1, toNat_shiftRightArith1, toNat_withLowByte,
      toNat_withHighByte]

/-! ## The step, its HLT word, and its record -/

/-- A step answers what the cycle answers, whose record it forgets. -/
theorem step_next_iff_cycle {s t : State} : step s = .next t ↔ cycle s = .next (t, ⟨s.pc, s.wordAtPc, t.x⟩) := by
  simp [step_next_iff, cycle_next_iff]

/-- The record holds the fetch address, the raw word and the registers after the step (R108). -/
theorem cycle_record {s t : State} {r : ObserverRecord} (h : cycle s = .next (t, r)) :
    r = ⟨s.pc, s.wordAtPc, t.x⟩ := by
  obtain ⟨-, -, -, hr⟩ := cycle_next_iff.mp h
  exact hr

/-- A step leaves the machine halted exactly when it fetched a HLT word (R105). -/
theorem step_halted_iff {s t : State} (h : step s = .next t) : t.halted = true ↔ decode s.wordAtPc = .hlt := by
  rw [halted_iff_decode, step_ir h]

/-- The step of a HLT word is its fetch alone (spec/47_halt_unknown.md R170). -/
theorem step_of_hlt {s : State} (hh : s.halted = false) (hp : s.pc.toNat < 256) (hd : decode s.wordAtPc = .hlt) :
    step s = .next s.fetched := by
  rw [step_of_fetch hh hp, hd]
  rfl

/-- A fault of the step is the fault of its cycle, since a cycle that completes is a step that does. -/
theorem cycle_fault_of_step {s : State} {f : Fault} (h : step s = .fault f) : cycle s = .fault f := by
  rcases andThen_fault_iff.mp h with hc | ⟨q, -, hq⟩
  · exact hc
  · cases hq

/-! ## A word placed for the next fetch -/

section

variable (s : State) (nbits w : Nat)

/-- A halted machine is given the `IR` of a reset, which holds no HLT word. -/
theorem fetchReady_not_halted : (fetchReady s).halted = false := by
  have hreset : opcode 0 ≠ 15#5 := by decide
  cases hh : s.halted <;> simp_all [fetchReady, State.halted]

theorem fetchReady_pc_lt : (fetchReady s).pc.toNat < 256 := by
  rw [fetchReady]
  split
  · assumption
  · exact show (0 : Word).toNat < 256 by decide

/-- A state that can fetch is ready to. -/
theorem fetchReady_eq_self {s : State} (hh : s.halted = false) (hp : s.pc.toNat < 256) : fetchReady s = s := by
  simp [fetchReady, hh, hp]

theorem withFetchWord_wordAtPc :
    (s.withFetchWord nbits w).wordAtPc = BitVec.ofNat 16 (w % 2 ^ nbits) :=
  Memory.read_write_same ..

end

/-! ## Bounded runs -/

theorem run_of_halted {s : State} (h : s.halted = true) (n : Nat) : run n s = ⟨s, [], .completed⟩ := by
  cases n <;> simp [run, h]

theorem run_zero {s : State} (h : s.halted = false) : run 0 s = ⟨s, [], .notFinished⟩ := by
  simp [run, h]

theorem run_succ_of_pc_out {s : State} (h : s.halted = false) (hp : 256 ≤ s.pc.toNat) (n : Nat) :
    run (n + 1) s = ⟨s, [], .faulted (.fetchOutOfRange s.pc)⟩ := by
  simp [run, h, cycle_of_pc_out h hp]

theorem run_succ_of_cycle {s t : State} {r : ObserverRecord} (h : cycle s = .next (t, r)) (n : Nat) :
    run (n + 1) s = { run n t with trace := r :: (run n t).trace } := by
  obtain ⟨hh, -⟩ := cycle_next_iff.mp h
  simp [run, hh, h]

/-- Induction along a bounded run: the machine is halted, or no step is left, or the fetch faults, or a step is taken
and the run goes on. -/
theorem run_induction {motive : Nat → State → Prop}
    (halted : ∀ n s, s.halted = true → motive n s)
    (limit : ∀ s, s.halted = false → motive 0 s)
    (fault : ∀ n s, s.halted = false → 256 ≤ s.pc.toNat → motive (n + 1) s)
    (next : ∀ n s t r, cycle s = .next (t, r) → motive n t → motive (n + 1) s) (n : Nat) (s : State) :
    motive n s := by
  induction n generalizing s with
  | zero =>
    cases hh : s.halted with
    | true => exact halted 0 s hh
    | false => exact limit s hh
  | succ n ih =>
    cases hh : s.halted with
    | true => exact halted _ s hh
    | false =>
      rcases Nat.lt_or_ge s.pc.toNat 256 with hp | hp
      · obtain ⟨t, -, hc⟩ := cycle_total hh hp
        exact next n s t _ hc (ih t)
      · exact fault n s hh hp

/-- A run that has ended is the same under every higher step limit (R109). -/
theorem run_eq_of_le (n : Nat) (s : State) :
    ∀ m, n ≤ m → (run n s).ending ≠ .notFinished → run m s = run n s := by
  induction n, s using run_induction with
  | halted n s hh => exact fun m _ _ => by rw [run_of_halted hh, run_of_halted hh]
  | limit s hh => exact fun m _ hend => absurd (by rw [run_zero hh]) hend
  | fault n s hh hp =>
    intro m hm _
    obtain ⟨k, rfl⟩ := Nat.exists_eq_add_of_lt hm
    rw [run_succ_of_pc_out hh hp, run_succ_of_pc_out hh hp]
  | next n s t r hc ih =>
    intro m hm hend
    obtain ⟨k, rfl⟩ := Nat.exists_eq_add_of_lt hm
    rw [run_succ_of_cycle hc] at hend
    rw [run_succ_of_cycle hc, run_succ_of_cycle hc, ih _ (by omega) hend]

/-- A run ends halted, or with the fault of its last state, or with one record for each step allowed (R109). -/
theorem run_ending (n : Nat) (s : State) :
    ((run n s).ending = .completed ∧ (run n s).final.halted = true) ∨
    ((run n s).ending = .faulted (.fetchOutOfRange (run n s).final.pc) ∧ 256 ≤ (run n s).final.pc.toNat) ∨
    ((run n s).ending = .notFinished ∧ (run n s).final.halted = false ∧ (run n s).trace.length = n) := by
  induction n, s using run_induction with
  | halted n s hh =>
    rw [run_of_halted hh]
    exact .inl ⟨rfl, hh⟩
  | limit s hh =>
    rw [run_zero hh]
    exact .inr (.inr ⟨rfl, hh, rfl⟩)
  | fault n s hh hp =>
    rw [run_succ_of_pc_out hh hp]
    exact .inr (.inl ⟨rfl, hp⟩)
  | next n s t r hc ih =>
    rw [run_succ_of_cycle hc]
    simpa only [List.length_cons, Nat.succ_inj] using ih

/-- The last record of a run is that of a HLT word, and the last state is the one after it. -/
def EndsWithHltRecord (res : RunResult) : Prop :=
  ∃ r, res.trace.getLast? = some r ∧ decode r.instructionWord = .hlt ∧ res.final.ir = r.instructionWord ∧
    res.final.pc = r.programCounter + 1 ∧ res.final.x = r.registers

/-- The run that takes one step, of a HLT word. -/
theorem endsWithHltRecord_of_cycle {s t : State} {r : ObserverRecord} (h : cycle s = .next (t, r))
    (ht : t.halted = true) : EndsWithHltRecord ⟨t, [r], .completed⟩ := by
  obtain ⟨hh, hp, he, rfl⟩ := cycle_next_iff.mp h
  have hd : decode s.wordAtPc = .hlt := (step_halted_iff (step_next_iff.mpr ⟨hh, hp, he⟩)).mp ht
  rw [hd] at he
  obtain rfl := Host.Outcome.next.inj he
  exact ⟨_, rfl, hd, rfl, rfl, rfl⟩

/-- An earlier record does not change how a run ends. -/
theorem endsWithHltRecord_cons {res : RunResult} (r : ObserverRecord) (h : EndsWithHltRecord res) :
    EndsWithHltRecord { res with trace := r :: res.trace } := by
  obtain ⟨q, hq, hrest⟩ := h
  exact ⟨q, by rw [List.getLast?_cons, hq, Option.getD_some], hrest⟩

/-- A completed run that takes a step ends with the step of its HLT word (R106). -/
theorem run_endsWithHltRecord (n : Nat) (s : State) :
    s.halted = false → (run n s).ending = .completed → EndsWithHltRecord (run n s) := by
  induction n, s using run_induction with
  | halted n s hh => exact fun h => absurd (hh.symm.trans h) (by decide)
  | limit s hh => simp [run_zero hh]
  | fault n s hh hp => simp [run_succ_of_pc_out hh hp]
  | next n s t r hc ih =>
    intro _ hend
    rw [run_succ_of_cycle hc] at hend ⊢
    cases ht : t.halted with
    | true =>
      rw [run_of_halted ht]
      exact endsWithHltRecord_of_cycle hc ht
    | false => exact endsWithHltRecord_cons r (ih ht hend)

/-! ## The obligations of spec/41_instruction_cycle.md -/

/-- Settles O35: in each of the three outcomes both sides take the same branch; where a step is taken, the pseudocode's
EXECUTE starts from the fetched state. -/
theorem cycleRefinesPseudocode : Obligations.CycleRefinesPseudocode := by
  intro s
  have hhalted := halted_iff_abs_ir s
  rw [absStep, abs_pc]
  cases hh : s.halted with
  | true =>
    rw [cycle_of_halted hh, if_pos (hhalted.mp hh)]
    rfl
  | false =>
    rw [if_neg (by simp [← hhalted, hh])]
    rcases Nat.lt_or_ge s.pc.toNat 256 with hp | hp
    · obtain ⟨t, ht, hc⟩ := cycle_total hh hp
      have habs := abs_exec_decode ht
      rw [abs_fetched, toNat_opcode, toNat_registerA, toNat_registerB, toNat_immediate] at habs
      rw [if_neg (Nat.not_le.mpr hp), hc]
      simp only [abs_imem_pc hp, ← habs]
      rfl
    · rw [cycle_of_pc_out hh hp, if_pos (show 256 ≤ s.pc.toNat from hp)]
      rfl

/-- Settles O31: the step of a HLT word leaves the fetched state, in which the machine is halted. -/
theorem hltWordGetsItsOwnStep : Obligations.HltWordGetsItsOwnStep := by
  refine ⟨fun _ _ => step_halted_iff, fun s hh hp hd => ?_⟩
  have hs := step_of_hlt hh hp hd
  have hhalted : s.fetched.halted = true := (step_halted_iff hs).mpr hd
  exact ⟨s.fetched, hs, rfl, rfl, rfl, fun _ => rfl, fun _ => rfl, fun _ => rfl, step_of_halted hhalted,
    fun _ => if_pos hhalted⟩

/-- Settles O33: `step` forgets the record of `cycle`, and `run` puts it in front of the records of the rest. -/
theorem everyStepEmitsItsRecord : Obligations.EveryStepEmitsItsRecord := by
  refine ⟨fun _ _ => step_next_iff_cycle, fun _ _ _ => cycle_record, fun _ _ => cycle_fault_of_step,
    fun s t r n h => ?_⟩
  rw [run_succ_of_cycle h]
  exact ⟨rfl, rfl⟩

/-- Settles O42 by the two inductions along the run. -/
theorem runOutcomesAreStable : Obligations.RunOutcomesAreStable :=
  ⟨fun s n m hm => run_eq_of_le n s m hm, fun s n => run_ending n s⟩

/-- Settles O43: the last step of the run is the one that halts the machine. -/
theorem completedRunEndsWithHltRecord : Obligations.CompletedRunEndsWithHltRecord :=
  fun s n => run_endsWithHltRecord n s

/-- Settles O28: the obligation writes the fetched word and the fetched state out. -/
theorem stepRunsDecodedInstruction : Obligations.StepRunsDecodedInstruction :=
  fun _ _ hh hp hi => hi ▸ step_of_fetch hh hp

/-- Settles O46: the placed word is the one at `pc`, and the state it was placed in can fetch. -/
theorem placedWordIsTheNextToRun : Obligations.PlacedWordIsTheNextToRun := by
  refine fun s w => ⟨⟨_, rfl, ?_⟩, fun hh hp => ?_⟩
  · rw [step_of_fetch (s := s.withFetchWord 16 w) (fetchReady_not_halted s) (fetchReady_pc_lt s),
      withFetchWord_wordAtPc]
  · rw [State.withFetchWord, fetchReady_eq_self hh hp]
    rfl

end Sys2Proof.Machine

/-! # The register-pair ALU instructions

Proofs of the rules of spec/42_alu_register_pair.md (R120 to R124). The five instructions are one operation on two
registers, `regPairOp`, with five functions of two words: its frame and its result are said once, and what is left of
each rule is a fact about its function. -/

namespace Sys2Proof.Machine

/-! ## The frame and the result of the shared operation -/

/-- A register write changes nothing but that register. -/
theorem onlyReg_writeReg (a : RegIdx) (v : Word) (s : State) : OnlyReg a s (s.writeReg a v) :=
  ⟨fun _ h => State.readReg_writeReg_other h, rfl, rfl, rfl, fun _ => rfl, fun _ => rfl⟩

theorem onlyReg_regPairOp (op : Word → Word → Word) (a b : RegIdx) (s : State) : OnlyReg a s (regPairOp op a b s) :=
  onlyReg_writeReg a _ s

/-- The destination holds the function of the two old values, also when it is the second operand (10_state.md R11). -/
theorem readReg_regPairOp_same (op : Word → Word → Word) (a b : RegIdx) (s : State) :
    (regPairOp op a b s).readReg a = op (s.readReg a) (s.readReg b) :=
  State.readReg_writeReg_same s a _

/-! ## The doubling of a word -/

/-- Doubling modulo 2^16 is a left shift by one place (R121, spec/43_shift.md R130). -/
theorem add_self_eq_shiftLeft1 (v : Word) : v + v = shiftLeft1 v := by
  refine BitVec.eq_of_toNat_eq ?_
  rw [toNat_shiftLeft1, BitVec.toNat_add, two_mul]

/-! ## The obligations of spec/42_alu_register_pair.md -/

/-- Settles O11: the source is either the destination, which now holds its old value, or a register of the frame. -/
theorem movCopiesRegister : Obligations.MovCopiesRegister := fun a b s =>
  ⟨_, rfl, readReg_regPairOp_same _ a b s, (readReg_regPairOp _ a b b s).trans (ite_self _), onlyReg_regPairOp _ a b s⟩

/-- Settles O12: addition of words is addition modulo 2^16, and both ADD and SL write one register. -/
theorem addWrapsAndDoubles : Obligations.AddWrapsAndDoubles := by
  refine fun a b s => ⟨⟨_, rfl, ?_, onlyReg_regPairOp _ a b s⟩, ?_⟩
  · rw [readReg_regPairOp_same, BitVec.toNat_add]
  · exact congrArg (fun v => Host.Outcome.next (s.writeReg a v)) (add_self_eq_shiftLeft1 (s.readReg a))

/-- Settles O13: subtraction of words is subtraction modulo 2^16. -/
theorem subWraps : Obligations.SubWraps := by
  refine fun a b s => ⟨_, rfl, ?_, ?_, onlyReg_regPairOp _ a b s⟩
  · rw [readReg_regPairOp_same]
    exact toNat_sub_eq_mod ..
  · rintro rfl
    rw [readReg_regPairOp_same, BitVec.sub_self]
    rfl

/-- Settles O14: a bit of the and, or of the or, of two words is that of the two bits. -/
theorem andOrAreBitwise : Obligations.AndOrAreBitwise := by
  refine fun a b s => ⟨⟨_, rfl, onlyReg_regPairOp _ a b s, fun k _ => ?_⟩,
    ⟨_, rfl, onlyReg_regPairOp _ a b s, fun k _ => ?_⟩⟩
  · rw [readReg_regPairOp_same, BitVec.getLsbD_and]
  · rw [readReg_regPairOp_same, BitVec.getLsbD_or]

end Sys2Proof.Machine

/-! # The shifts

Proofs of the rules of spec/43_shift.md (R130 to R132). The three instructions are one operation on one register,
`regOp`, with three functions of a word: its frame and its result are said once, and what is left of each rule is a
fact about its function. -/

namespace Sys2Proof.Machine

/-! ## The frame and the result of the shared operation -/

theorem onlyReg_regOp (op : Word → Word) (a : RegIdx) (s : State) : OnlyReg a s (regOp op a s) :=
  onlyReg_writeReg a _ s

theorem readReg_regOp_same (op : Word → Word) (a : RegIdx) (s : State) :
    (regOp op a s).readReg a = op (s.readReg a) :=
  State.readReg_writeReg_same s a _

/-! ## The bits and the quotients of the three functions -/

section

variable (w : Word)

theorem getLsbD_shiftLeft1_zero : (shiftLeft1 w).getLsbD 0 = false := by
  simp [shiftLeft1]

theorem getLsbD_shiftLeft1_succ {k : Nat} (h : k < 15) : (shiftLeft1 w).getLsbD (k + 1) = w.getLsbD k := by
  have hin : k + 1 < 16 := by omega
  rw [shiftLeft1, BitVec.getLsbD_shiftLeft]
  simp [hin]

theorem getLsbD_shiftRight1 (k : Nat) : (shiftRight1 w).getLsbD k = w.getLsbD (k + 1) := by
  rw [shiftRight1, BitVec.getLsbD_ushiftRight, Nat.add_comm]

theorem getLsbD_shiftRight1_last : (shiftRight1 w).getLsbD 15 = false :=
  (getLsbD_shiftRight1 w 15).trans (BitVec.getLsbD_of_ge w 16 le_rfl)

/-- The formula of R132 is the arithmetic right shift: the or puts the old sign bit where the right shift puts 0. -/
theorem shiftRightArith1_eq_sshiftRight : shiftRightArith1 w = w.sshiftRight 1 := by
  refine BitVec.eq_of_getLsbD_eq fun k hk => ?_
  rw [shiftRightArith1, BitVec.getLsbD_sshiftRight]
  interval_cases k <;> simp [BitVec.msb_eq_getLsbD_last]

theorem getLsbD_shiftRightArith1 {k : Nat} (h : k < 15) : (shiftRightArith1 w).getLsbD k = w.getLsbD (k + 1) := by
  have hk : k < 16 := by omega
  have hin : 1 + k < 16 := by omega
  rw [shiftRightArith1_eq_sshiftRight, BitVec.getLsbD_sshiftRight, if_pos hin, Nat.add_comm]
  simp [hk]

theorem getLsbD_shiftRightArith1_last : (shiftRightArith1 w).getLsbD 15 = w.getLsbD 15 := by
  rw [shiftRightArith1_eq_sshiftRight, BitVec.getLsbD_sshiftRight]
  simp [BitVec.msb_eq_getLsbD_last]

/-- Division of integers by 2 rounds toward minus infinity. -/
theorem toInt_shiftRightArith1 : (shiftRightArith1 w).toInt = w.toInt / 2 := by
  rw [shiftRightArith1_eq_sshiftRight, BitVec.toInt_sshiftRight, Int.shiftRight_eq_div_pow]
  rfl

end

/-! ## The obligation of spec/43_shift.md -/

/-- Settles O15: each shift writes one register, and the result is that of its function of the old value. -/
theorem shiftsMoveBitsByOne : Obligations.ShiftsMoveBitsByOne := by
  refine fun a s => ⟨⟨_, rfl, onlyReg_regOp _ a s, ?_⟩, ⟨_, rfl, onlyReg_regOp _ a s, ?_⟩,
    ⟨_, rfl, onlyReg_regOp _ a s, ?_⟩⟩ <;> rw [readReg_regOp_same]
  · exact ⟨getLsbD_shiftLeft1_zero _, fun _ => getLsbD_shiftLeft1_succ _⟩
  · exact ⟨getLsbD_shiftRight1_last _, fun k _ => getLsbD_shiftRight1 _ k, toNat_shiftRight1 _⟩
  · exact ⟨getLsbD_shiftRightArith1_last _, fun _ => getLsbD_shiftRightArith1 _, toInt_shiftRightArith1 _⟩

end Sys2Proof.Machine

/-! # The byte loads

Proofs of the rules of spec/44_byte_load.md (R140 to R142). Both instructions write one register with a function
of its old value, `withLowByte` or `withHighByte`: which byte each replaces and which it keeps is said once, and R142 is
the composition of the two. -/

namespace Sys2Proof.Machine

/-! ## The two bytes of the result -/

section

variable (w k : Word) (imm lo hi : Byte)

theorem lowByte_withLowByte : (withLowByte w imm).extractLsb' 0 8 = imm := by
  rw [withLowByte_eq_append]
  exact BitVec.extractLsb'_append_eq_right

theorem highByte_withLowByte : (withLowByte w imm).extractLsb' 8 8 = w.extractLsb' 8 8 := by
  rw [withLowByte_eq_append]
  exact BitVec.extractLsb'_append_eq_left

theorem lowByte_withHighByte : (withHighByte w imm).extractLsb' 0 8 = w.extractLsb' 0 8 := by
  rw [withHighByte_eq_append]
  exact BitVec.extractLsb'_append_eq_right

theorem highByte_withHighByte : (withHighByte w imm).extractLsb' 8 8 = imm := by
  rw [withHighByte_eq_append]
  exact BitVec.extractLsb'_append_eq_left

/-! ## The composition of the two -/

/-- After both replacements nothing of the old word is left. -/
theorem withLowByte_withHighByte : withLowByte (withHighByte w hi) lo = hi ++ lo := by
  rw [withLowByte_eq_append, highByte_withHighByte]

/-- The other order gives the same word, because each keeps exactly the byte the other writes (R142). -/
theorem withHighByte_withLowByte : withHighByte (withLowByte w lo) hi = hi ++ lo := by
  rw [withHighByte_eq_append, lowByte_withLowByte]

theorem highByte_append_lowByte : k.extractLsb' 8 8 ++ k.extractLsb' 0 8 = k := by
  rw [BitVec.extractLsb'_append_extractLsb'_eq_extractLsb' (by decide)]
  exact BitVec.extractLsb'_eq_self

end

/-! ## The frame of two loads in a row -/

/-- Two changes of one register in a row change nothing else. -/
theorem onlyReg_trans {a : RegIdx} {s t u : State} (hst : OnlyReg a s t) (htu : OnlyReg a t u) : OnlyReg a s u := by
  obtain ⟨hx, hpc, hflag, hir, himem, hdmem⟩ := hst
  obtain ⟨hx', hpc', hflag', hir', himem', hdmem'⟩ := htu
  exact ⟨fun r hr => (hx' r hr).trans (hx r hr), hpc'.trans hpc, hflag'.trans hflag, hir'.trans hir,
    fun c => (himem' c).trans (himem c), fun c => (hdmem' c).trans (hdmem c)⟩

/-! ## The obligations of spec/44_byte_load.md -/

/-- Settles O17: each load writes only `x[A]`, and the two replacements together make the word of the two bytes. -/
theorem bytePairLoadsConstant : Obligations.BytePairLoadsConstant := by
  refine fun a k s => ⟨⟨_, _, rfl, rfl, ?_, onlyReg_trans (onlyReg_writeReg a _ s) (onlyReg_writeReg a _ _)⟩,
    ⟨_, _, rfl, rfl, ?_, onlyReg_trans (onlyReg_writeReg a _ s) (onlyReg_writeReg a _ _)⟩⟩ <;>
    rw [State.readReg_writeReg_same, State.readReg_writeReg_same]
  · rw [withLowByte_withHighByte, highByte_append_lowByte]
  · rw [withHighByte_withLowByte, highByte_append_lowByte]

/-- Settles O16: each load writes one register, and the result is that of its function of the old value. -/
theorem byteLoadsReplaceOneByte : Obligations.ByteLoadsReplaceOneByte := by
  refine fun a imm s => ⟨⟨_, rfl, onlyReg_writeReg a _ s, ?_⟩, ⟨_, rfl, onlyReg_writeReg a _ s, ?_⟩⟩ <;>
    rw [State.readReg_writeReg_same]
  · exact ⟨lowByte_withLowByte _ imm, highByte_withLowByte _ imm⟩
  · exact ⟨highByte_withHighByte _ imm, lowByte_withHighByte _ imm⟩

end Sys2Proof.Machine

/-! # Compare and control transfer

Proofs of the rules of spec/45_compare_branch.md (R150 to R153). CMP is a write of the flag with `equalFlag`, a jump a
write of `pc` with `jumpTarget`: what each write leaves alone and what each function computes is said once. The latch of
R151 is the flag that the steps without a CMP keep. -/

namespace Sys2Proof.Machine

/-! ## What a write of the flag and a write of `pc` leave alone -/

theorem onlyFlag_setFlag (b : Bool) (s : State) : OnlyFlag s (s.setFlag b) :=
  ⟨fun _ => rfl, rfl, rfl, fun _ => rfl, fun _ => rfl⟩

theorem onlyPc_setPc (p : Word) (s : State) : OnlyPc s (s.setPc p) :=
  ⟨fun _ => rfl, rfl, rfl, fun _ => rfl, fun _ => rfl⟩

theorem onlyPc_refl (s : State) : OnlyPc s s := onlyPc_setPc s.pc s

/-! ## The comparison and the target -/

theorem equalFlag_eq_true_iff (v w : Word) : equalFlag v w = true ↔ v = w := beq_iff_eq

/-- Zero extension keeps the number of the address (R153). -/
theorem toNat_jumpTarget (addr : Addr) : (jumpTarget addr).toNat = addr.toNat :=
  BitVec.toNat_setWidth_of_le (by decide)

/-! ## The step of a CMP and of a JE -/

/-- A step that runs a CMP leaves the flag of the registers as it found them. -/
theorem step_cmp_flag {s t : State} {a b : RegIdx} (hd : decode s.wordAtPc = .cmp a b) (h : step s = .next t) :
    t.flag = equalFlag (s.readReg a) (s.readReg b) := by
  obtain ⟨-, -, he⟩ := step_next_iff.mp h
  rw [hd] at he
  obtain rfl := Host.Outcome.next.inj he
  rfl

/-- Steps that run no CMP keep the flag (R151, spec/10_state.md R14). -/
theorem stepsWithout_isCmp_flag {s u : State} (h : StepsWithout Instr.isCmp s u) : u.flag = s.flag :=
  stepsWithout_keeps (part := State.flag) step_flag_of_not_cmp h

/-- A step that runs a JE jumps on the flag. -/
theorem step_je_pc {s t : State} {addr : Addr} (hd : decode s.wordAtPc = .je addr) (h : step s = .next t) :
    t.pc = if s.flag then jumpTarget addr else s.pc + 1 := by
  rw [step_pc h, hd, Instr.jumpTaken]
  cases s.flag <;> rfl

/-! ## The step after a jump -/

/-- A machine that is not halted and whose `pc` is inside the store has a step (R101). -/
theorem step_total {s : State} (h : s.halted = false) (hp : s.pc.toNat < 256) : ∃ t, step s = .next t := by
  rw [step_of_fetch h hp]
  exact exec_total ..

/-- A step that takes a jump ran no HLT, so it does not leave the machine halted. -/
theorem step_not_halted_of_jump {s t : State} {target : Word} (h : step s = .next t)
    (hj : (decode s.wordAtPc).jumpTaken s.flag = some target) : t.halted = false := by
  rw [← Bool.not_eq_true, step_halted_iff h]
  intro hd
  simp [hd, Instr.jumpTaken] at hj

/-! ## The obligations of spec/45_compare_branch.md -/

/-- Settles O34: the target is inside the store, and a jump does not halt the machine. -/
theorem jumpsNeverLeaveTheStore : Obligations.JumpsNeverLeaveTheStore := by
  intro s t target h hj
  have hpc : t.pc = target := by rw [step_pc h, hj, Option.getD_some]
  have hlt : target.toNat < 256 := jumpTaken_lt hj
  exact ⟨hpc, hlt, step_total (step_not_halted_of_jump h hj) (hpc ▸ hlt)⟩

/-- Settles O41: the JE finds the flag that the CMP, or the reset, left, since no step between them writes it. -/
theorem jeSeesTheLatestCmp : Obligations.JeSeesTheLatestCmp := by
  refine ⟨fun s0 s1 s2 s3 a b addr hcmp h01 h12 hje h23 => ?_, fun image s2 s3 addr h02 hje h23 => ?_⟩
  · have hflag : s2.flag = equalFlag (s0.readReg a) (s0.readReg b) :=
      (stepsWithout_isCmp_flag h12).trans (step_cmp_flag hcmp h01)
    simp only [step_je_pc hje h23, hflag, equalFlag_eq_true_iff, jumpTarget]
  · have hflag : s2.flag = false := stepsWithout_isCmp_flag h02
    rw [step_je_pc hje h23, hflag]
    rfl

/-- Settles O18: words that are equal agree in every bit, and CMP writes only the flag. -/
theorem cmpWritesFlag : Obligations.CmpWritesFlag := by
  refine fun a b s => ⟨_, rfl, ?_, ?_, onlyFlag_setFlag _ s⟩
  · rw [State.setFlag_flag, equalFlag_eq_true_iff, BitVec.eq_of_getLsbD_eq_iff]
  · rintro rfl
    rw [State.setFlag_flag, equalFlag_eq_true_iff]

/-- Settles O19: with the flag 1 a JE is a write of `pc`, with the flag 0 it changes nothing. -/
theorem jeJumpsOnFlag : Obligations.JeJumpsOnFlag := by
  intro addr s
  cases hf : s.flag with
  | true =>
    have he : exec (.je addr) s = .next (s.setPc (jumpTarget addr)) := by simp [exec, execJe, hf]
    exact ⟨_, he, fun _ => toNat_jumpTarget addr, nofun, onlyPc_setPc _ s⟩
  | false =>
    have he : exec (.je addr) s = .next s := by simp [exec, execJe, hf]
    exact ⟨_, he, nofun, fun _ => rfl, onlyPc_refl s⟩

/-- Settles O20: JMP is a write of `pc`. -/
theorem jmpJumps : Obligations.JmpJumps :=
  fun addr s => ⟨_, rfl, toNat_jumpTarget addr, onlyPc_setPc _ s⟩

end Sys2Proof.Machine

/-! # The load and the store

Proofs of the rules of spec/46_load_store.md (R160, R161). LD is a write of one register with a word of the data store,
ST a write of one word of the data store with a register: what each leaves alone is the frame of that write. -/

namespace Sys2Proof.Machine

/-- A write of the data store changes nothing but the word at its address (spec/20_memory.md R30, R33, R39). -/
theorem onlyDataWord_storeData (addr : Addr) (v : Word) (s : State) : OnlyDataWord addr s (s.storeData addr v) :=
  ⟨fun _ => rfl, rfl, rfl, rfl, fun _ => rfl, fun _ h => Memory.read_write_other s.dmem v h⟩

/-! ## The obligations of spec/46_load_store.md -/

/-- Settles O21: LD is a write of `x[A]` with the data word at its address. -/
theorem ldLoadsWord : Obligations.LdLoadsWord := fun a _ s =>
  ⟨_, rfl, State.readReg_writeReg_same s a _, onlyReg_writeReg a _ s⟩

/-- Settles O22: ST is a write of the data word at its address with `x[A]`. -/
theorem stStoresWord : Obligations.StStoresWord := fun a addr s =>
  ⟨_, rfl, Memory.read_write_same s.dmem (dataAddress addr) (s.readReg a), onlyDataWord_storeData _ _ s⟩

end Sys2Proof.Machine

/-! # The halt and the undefined opcodes

Proofs of the rules of spec/47_halt_unknown.md (R170, R171). The execute phase of both is empty: what their steps do is
done by the fetch (`step_of_hlt`). -/

namespace Sys2Proof.Machine

/-- The execute phase of HLT is empty (spec/47_halt_unknown.md R170). -/
@[simp] theorem exec_hlt (s : State) : exec .hlt s = .next s := rfl

/-- The execute phase of UNK is empty, whatever the opcode value and the low bits (spec/47_halt_unknown.md R171). -/
@[simp] theorem exec_unk (op : BitVec 5) (low : BitVec 11) (s : State) : exec (.unk op low) s = .next s := rfl

/-! ## The obligation of spec/47_halt_unknown.md -/

/-- Settles O23: the empty execute phases of HLT and of UNK. -/
theorem hltAndUnkExecuteNothing : Obligations.HltAndUnkExecuteNothing :=
  fun s => ⟨exec_hlt s, fun op low => exec_unk op low s⟩

end Sys2Proof.Machine

/-! # The one fault

Proofs of the rules of spec/60_exceptions.md (R181, R182, R184). The machine can stop in two ways, halted or at a fetch
past the store; a step ends in the second exactly when it leaves `pc` at 256 (`step_pc_le`) without halting. -/

namespace Sys2Proof.Machine

/-- A step faults exactly when the machine is not halted and its `pc` is past the store, and records that `pc` (R181). -/
theorem step_fault_iff {s : State} {f : Fault} :
    step s = .fault f ↔ s.halted = false ∧ 256 ≤ s.pc.toNat ∧ f = .fetchOutOfRange s.pc := by
  constructor
  · intro hf
    cases hh : s.halted with
    | true => simp [step_of_halted hh] at hf
    | false =>
      rcases Nat.lt_or_ge s.pc.toNat 256 with hp | hp
      · obtain ⟨t, ht⟩ := step_total hh hp
        simp [ht] at hf
      · rw [step_of_pc_out hh hp] at hf
        exact ⟨rfl, hp, (Host.Outcome.fault.inj hf).symm⟩
  · rintro ⟨hh, hp, rfl⟩
    exact step_of_pc_out hh hp

/-- After a step, a `pc` past the store is 256. -/
theorem step_pc_eq_256_of_ge {s t : State} (h : step s = .next t) (hp : 256 ≤ t.pc.toNat) : t.pc = 256 :=
  BitVec.eq_of_toNat_eq (Nat.le_antisymm (step_pc_le h) hp)

/-- A step leaves `pc` at 256 exactly when it fetches from 255 and takes no jump (spec/10_state.md R13). -/
theorem step_pc_eq_256_iff {s t : State} (h : step s = .next t) :
    t.pc = 256 ↔ s.pc = 255 ∧ (decode s.wordAtPc).jumpTaken s.flag = none := by
  constructor
  · exact fun h256 => step_pc_eq_256 h (congrArg BitVec.toNat h256)
  · rintro ⟨hpc, hj⟩
    rw [step_pc h, hj, hpc]
    rfl

/-- After a step, the next one faults exactly when `pc` is 256 and the word that was fetched is no HLT. -/
theorem step_then_fault_iff {s t : State} {f : Fault} (h : step s = .next t) :
    step t = .fault f ↔ t.pc = 256 ∧ decode s.wordAtPc ≠ .hlt ∧ f = .fetchOutOfRange 256 := by
  rw [step_fault_iff, ← Bool.not_eq_true, step_halted_iff h]
  constructor
  · rintro ⟨hd, hp, rfl⟩
    have h256 := step_pc_eq_256_of_ge h hp
    exact ⟨h256, hd, by rw [h256]⟩
  · rintro ⟨h256, hd, rfl⟩
    rw [h256]
    exact ⟨hd, Nat.le_refl 256, rfl⟩

/-! ## The obligations of spec/60_exceptions.md -/

/-- Settles O29: one lemma of the step for each of its three outcomes. -/
theorem stepHasThreeOutcomes : Obligations.StepHasThreeOutcomes :=
  fun _ => ⟨step_of_halted, step_of_pc_out, step_total⟩

/-- Settles O30: the fault is a `pc` of 256 and no halt, and what brings `pc` to 256 is `step_pc_eq_256_iff`. -/
theorem faultOnlyPastTheLastWord : Obligations.FaultOnlyPastTheLastWord := by
  intro s t h
  simp only [step_then_fault_iff h, step_pc_eq_256_iff h]
  exact ⟨fun _ ⟨_, _, hf⟩ => hf,
    fun ⟨_, ⟨hpc, hj⟩, hd, _⟩ => ⟨hpc, hd, hj⟩, fun ⟨hpc, hd, hj⟩ => ⟨_, ⟨hpc, hj⟩, hd, rfl⟩⟩

end Sys2Proof.Machine

/-! # The loader

Proofs of the rules of spec/70_reset_and_hazards.md (R202, R203). A load image is a load into the empty store, so both
are the load from address 0. -/

namespace Sys2Proof.Machine

/-- A load from address 0 reads as the list at its addresses and as before above them. -/
theorem Memory.read_loadAt_zero (m : Memory) {ws : List Word} (h : ws.length ≤ 256) (a : Addr) :
    (m.loadAt 0 ws).read a = ws.getD a.toNat (m.read a) := by
  rw [Memory.read_loadAt m 0 ws a (by omega), if_pos (Nat.zero_le _), Nat.sub_zero]

/-! ## The obligation of spec/70_reset_and_hazards.md -/

/-- Settles O45: the two reads and the two canonical forms are those of a load from address 0. -/
theorem loaderFillsInstructionStore : Obligations.LoaderFillsInstructionStore :=
  ⟨fun _ h a => Memory.read_loadAt_zero [] h a,
    fun s _ h a => Memory.read_loadAt_zero s.imem h a,
    fun ws => ⟨Memory.wf_loadAt Memory.wf_nil 0 ws, rfl⟩,
    fun _ ws h => Memory.wf_loadAt h 0 ws,
    fun _ _ => rfl⟩

end Sys2Proof.Machine
